-- ==== Sys2Proof/Word.lean ====
section
/-! DEFINITION. The value types of CORE: bytes, 32-bit words, 64-bit lengths, eight-word register files and 64-byte blocks
(spec/00_scope.md rules R8, R10 and R12). -/

namespace Sys2Proof

/-- `u8` of R10. -/
abbrev Byte := BitVec 8

/-- `u32` of R10: the datapath word (R8). -/
abbrev Word := BitVec 32

/-- A `u64` of R10: the width of the message length (R8, LEN_BITS). -/
abbrev Length := BitVec 64

/-- A block: 64 bytes, byte 0 first (R8, BLOCK_BYTES; R17). -/
abbrev Block := Vector Byte 64

/-- Eight words in index order 0..7: the shape of the hash state `H[0..7]` (R20) and of the working registers
`V[0..7]`, whose aliases `a` to `h` (R21) name the eight fields. -/
structure Words8 where
  a : Word
  b : Word
  c : Word
  d : Word
  e : Word
  f : Word
  g : Word
  h : Word
deriving DecidableEq, Repr

end Sys2Proof
end

