-- ==== Sys2Proof/Config.lean ====
section
/-! DEFINITION. The parameters of spec/00_scope.md: those the source fixes (R8), and those the spec decides or leaves open
(R9). An open parameter is an opaque constant: nothing can evaluate it. -/

namespace Sys2Proof

/-- Who makes a transition: the two agents of R7, or the platform with its reset input (R291). -/
inductive Turn where
  | host
  | core
  | reset
deriving DecidableEq, Repr

namespace Config

/-- N_ROUNDS (R8): rounds per block. -/
def rounds : Nat := 64

/-- BLOCK_BYTES (R8). -/
def blockBytes : Nat := 64

/-- BUS_WIDTH (R9) in bytes: the only access width there is (R66). -/
def busBytes : Nat := 4

/-- WINDOW_BYTES (R9): the size of the register window (R60). -/
def windowBytes : Nat := 64

/-- MAX_MSG_BYTES (R8; spec/90_conflicts.md C4): the longest message, in bytes. -/
def maxMessageBytes : Nat := 2 ^ 61 - 1

/-- The largest value of the 64-bit length field (R152). -/
def maxLength : Nat := 2 ^ 64 - 1

/-- Which 64-byte slot of the host's address space the platform gives the window: an open parameter (R62; log 5). -/
opaque windowSlot : Nat

/-- CORE_BASE (R9, R62): an open parameter, a multiple of 64. -/
def coreBase : Nat := windowBytes * windowSlot

/-- Who moves before the sequencer's next turn, in each batch of each order: a free value, for no rule fixes the order of the
agents (R241, spec/93 U8; log 1). A batch is finite, and the sequencer's turn follows it (R245). -/
opaque turnBatch (order batch : Nat) : List Turn

end Config

end Sys2Proof
end

