-- ==== Sys2Proof/Access.lean ====
section
/-! DEFINITION. What the host asks of CORE: one bus access (spec/00_scope.md rule R14, spec/20_memory.md rules R61 to R66),
and the operations of a host program (spec/30_encoding.md rule R101). Offsets count from CORE_BASE, so CORE_BASE itself
never enters a decode (R61). -/

namespace Sys2Proof

/-- One access as the host's bus presents it. `off` is the address less CORE_BASE (R61) and may lie outside the window;
`bytes` is its width. `data` is DATA of R91, of no account for a read. -/
structure HostAccess where
  write : Bool
  off : Int
  bytes : Nat
  data : Word
deriving DecidableEq, Repr

/-- The offset of an address from CORE_BASE (R61). -/
def windowOffset (addr : Nat) : Int := (addr : Int) - (Config.coreBase : Int)

/-- `MemRead(addr, n)` as a bus access (R14). -/
def HostAccess.memRead (addr n : Nat) : HostAccess := ⟨false, windowOffset addr, n, 0⟩

/-- `MemWrite(addr, n, v)` as a bus access (R14). -/
def HostAccess.memWrite (addr n : Nat) (v : Word) : HostAccess := ⟨true, windowOffset addr, n, v⟩

/-- `BusRead(off)` (R14). -/
def HostAccess.busRead (off : Int) : HostAccess := ⟨false, off, Config.busBytes, 0⟩

/-- `BusWrite(off, v)` (R14). -/
def HostAccess.busWrite (off : Int) (v : Word) : HostAccess := ⟨true, off, Config.busBytes, v⟩

/-- One operation of a host program (R101). A label is the position it marks in the program (log 2). The widths of
`wr` and `rd` are written out so that accesses outside the interface can be presented, and refused (R66). -/
inductive HostOp where
  /-- `WR <reg>, <imm32>`. -/
  | wr (off : Int) (bytes : Nat) (data : Word)
  /-- `RD <reg> -> r<k>`. -/
  | rd (off : Int) (bytes : Nat) (k : Fin 16)
  /-- `BBS r<k>, <bit>, <label>`: branch if the bit is 1. -/
  | bbs (k : Fin 16) (bit : Fin 32) (label : Nat)
  /-- `BBC r<k>, <bit>, <label>`: branch if the bit is 0. -/
  | bbc (k : Fin 16) (bit : Fin 32) (label : Nat)
  /-- `HALT`: the end of the program. -/
  | halt
deriving DecidableEq, Repr

end Sys2Proof
end

