-- ==== Sys2Proof/Syntax.lean ====
section
/-! DEFINITION. The instructions of CORE: one constructor for each of the 25 rows of spec/opcode_table.json. CORE has no
instruction set of its own (R2): its instructions are the command words (spec/30_encoding.md rule R94) and the accesses
to the register window (R95). -/

namespace Sys2Proof

/-- The rows of the opcode table, in the table's order. -/
inductive Instr where
  /-- Command word `0x00000000` (R233). -/
  | nop
  /-- Command word `0x00000001` (R232). -/
  | init
  /-- Command word `0x00000102` (R234). -/
  | push1
  /-- Command word `0x00000202` (R234). -/
  | push2
  /-- Command word `0x00000302` (R234). -/
  | push3
  /-- Command word `0x00000402` (R234). -/
  | push4
  /-- Command word `0x00000003` (R235). -/
  | finish
  /-- Descriptor `0x00` (R222). -/
  | rdCtrl
  /-- Descriptor `0x04` (R223). -/
  | rdDin
  /-- Descriptor `0x08` (R224). -/
  | rdStatus
  /-- Descriptor `0x0c` (R225). -/
  | rdLenLo
  /-- Descriptor `0x10` (R227). -/
  | rdLenHi
  /-- Descriptor `0x14` (R228). -/
  | rdRsv5
  /-- Descriptor `0x18` (R228). -/
  | rdRsv6
  /-- Descriptor `0x1c` (R228). -/
  | rdRsv7
  /-- Descriptor `0x20 + 4i` (R226). -/
  | rdDigest (i : Fin 8)
  /-- Descriptor `0x40` with the command word `v` as DATA (R231). -/
  | wrCtrl (v : Word)
  /-- Descriptor `0x44` with DATA `v` (R230). -/
  | wrDin (v : Word)
  /-- Descriptor `0x48` with DATA `v` (R229). -/
  | wrStatus (v : Word)
  /-- Descriptor `0x4c` with DATA `v` (R229). -/
  | wrLenLo (v : Word)
  /-- Descriptor `0x50` with DATA `v` (R229). -/
  | wrLenHi (v : Word)
  /-- Descriptor `0x54` with DATA `v` (R229). -/
  | wrRsv5 (v : Word)
  /-- Descriptor `0x58` with DATA `v` (R229). -/
  | wrRsv6 (v : Word)
  /-- Descriptor `0x5c` with DATA `v` (R229). -/
  | wrRsv7 (v : Word)
  /-- Descriptor `0x60 + 4i` with DATA `v` (R229). -/
  | wrDigest (i : Fin 8) (v : Word)
deriving DecidableEq, Repr

end Sys2Proof
end

