-- ==== Sys2Proof/WellFormed.lean ====
section
/-! DEFINITION. Well-formed accesses, host operations, host programs and instructions: what the interface of
spec/20_memory.md rules R60 to R66 admits, as decidable checks. -/

namespace Sys2Proof

/-- The access addresses the window (R61, R62). -/
def HostAccess.inWindow (a : HostAccess) : Bool := decide (0 ≤ a.off) && decide (a.off < 64)

/-- The access is 32 bits wide (R66). -/
def HostAccess.wordWide (a : HostAccess) : Bool := decide (a.bytes = Config.busBytes)

/-- The access is at an offset that is a multiple of 4 (R66). -/
def HostAccess.aligned (a : HostAccess) : Bool := decide (a.off % 4 = 0)

/-- The access is one of CORE's interface (R66). -/
def HostAccess.wf (a : HostAccess) : Bool := a.inWindow && a.wordWide && a.aligned

/-- An operation of a program of `n` operations: an access of the interface, or a branch to a position of the program
(its end included, where a label may stand). -/
def HostOp.wf (n : Nat) : HostOp → Bool
  | .wr off bytes data => HostAccess.wf ⟨true, off, bytes, data⟩
  | .rd off bytes _ => HostAccess.wf ⟨false, off, bytes, 0⟩
  | .bbs _ _ label => decide (label ≤ n)
  | .bbc _ _ label => decide (label ≤ n)
  | .halt => true

/-- Every operation of the program is well formed. -/
def programWf (p : List HostOp) : Bool := p.all (HostOp.wf p.length)

/-- The register slot an instruction addresses, `off[5:2]` (R61); a command is a write to CTRL, slot 0 (R18). -/
def Instr.slot : Instr → Nat
  | .nop | .init | .push1 | .push2 | .push3 | .push4 | .finish => 0
  | .rdCtrl => 0
  | .rdDin => 1
  | .rdStatus => 2
  | .rdLenLo => 3
  | .rdLenHi => 4
  | .rdRsv5 => 5
  | .rdRsv6 => 6
  | .rdRsv7 => 7
  | .rdDigest i => 8 + i.val
  | .wrCtrl _ => 0
  | .wrDin _ => 1
  | .wrStatus _ => 2
  | .wrLenLo _ => 3
  | .wrLenHi _ => 4
  | .wrRsv5 _ => 5
  | .wrRsv6 _ => 6
  | .wrRsv7 _ => 7
  | .wrDigest i _ => 8 + i.val

/-- An instruction addresses one of the window's 16 slots (R60). Its operands are bounded by their types, so every
term meets this; an ill-formed operand cannot be written. -/
def Instr.wf (i : Instr) : Bool := decide (i.slot < 16)

end Sys2Proof
end

