-- ==== Sys2Proof/Decode.lean ====
section
/-! DEFINITION. Decoding and encoding (spec/30_encoding.md). CORE decodes two kinds of encoded input and no others (R90):
the command word (R92, R94) and the bus descriptor with its DATA word (R91, R95). -/

namespace Sys2Proof

/-- What a command word can say: `Cmd` of R92. -/
inductive Command where
  | nop
  | init
  | push (nb : Nat)
  | finish
  | illegal
deriving DecidableEq, Repr

/-- An encoded input of R90. -/
inductive Encoded where
  /-- A command word (R92). -/
  | command (v : Word)
  /-- A bus descriptor with DATA, which a read leaves 0 (R91, R101). -/
  | bus (desc : BitVec 7) (data : Word)
deriving DecidableEq, Repr

/-- Why an access is outside CORE's interface. -/
inductive AccessReject where
  /-- `ALIGN` is not `00` (R66, R91). -/
  | misaligned
  /-- The access is not 32 bits wide (R66). -/
  | notWordWide
  /-- The address is outside the window (R62). -/
  | outsideWindow
deriving DecidableEq, Repr

/-- Why an encoded input has no instruction. -/
inductive Reject where
  /-- The command word is illegal (R96). On the bus it is no refusal: the CTRL write sets ERR_CMD (R260). -/
  | illegalCommand
  /-- The bus access is outside the interface. -/
  | access (r : AccessReject)
deriving DecidableEq, Repr

/-- `decode(v)` of R92, total on every word. -/
def decodeCommand (v : Word) : Command :=
  if v.extractLsb' 4 4 ≠ 0 ∨ v.extractLsb' 11 21 ≠ 0 then .illegal
  else match (v.extractLsb' 0 4).toNat, (v.extractLsb' 8 3).toNat with
    | 0, 0 => .nop
    | 1, 0 => .init
    | 2, n => if 1 ≤ n ∧ n ≤ 4 then .push n else .illegal
    | 3, 0 => .finish
    | _, _ => .illegal

/-- The table row of a legal command (R94). -/
def Command.toInstr : Command → Option Instr
  | .nop => some .nop
  | .init => some .init
  | .push 1 => some .push1
  | .push 2 => some .push2
  | .push 3 => some .push3
  | .push 4 => some .push4
  | .push _ => none
  | .finish => some .finish
  | .illegal => none

/-- The read of register slot `reg` (R95, WR = 0). -/
def decodeRead (reg : BitVec 4) : Instr :=
  match reg.toNat with
  | 0 => .rdCtrl
  | 1 => .rdDin
  | 2 => .rdStatus
  | 3 => .rdLenLo
  | 4 => .rdLenHi
  | 5 => .rdRsv5
  | 6 => .rdRsv6
  | 7 => .rdRsv7
  | n => .rdDigest (Fin.ofNat 8 n)

/-- The write of `v` to register slot `reg` (R95, WR = 1). -/
def decodeWrite (reg : BitVec 4) (v : Word) : Instr :=
  match reg.toNat with
  | 0 => .wrCtrl v
  | 1 => .wrDin v
  | 2 => .wrStatus v
  | 3 => .wrLenLo v
  | 4 => .wrLenHi v
  | 5 => .wrRsv5 v
  | 6 => .wrRsv6 v
  | 7 => .wrRsv7 v
  | n => .wrDigest (Fin.ofNat 8 n) v

/-- The descriptor of R91: WR is bit 6, REG bits 5:2, ALIGN bits 1:0. -/
def decodeDescriptor (desc : BitVec 7) (data : Word) : Except AccessReject Instr :=
  if desc.extractLsb' 0 2 ≠ 0 then .error .misaligned
  else if desc.getLsbD 6 then .ok (decodeWrite (desc.extractLsb' 2 4) data)
  else .ok (decodeRead (desc.extractLsb' 2 4))

/-- Decode either kind of input, rejecting by name. -/
def decode : Encoded → Except Reject Instr
  | .command v =>
    match (decodeCommand v).toInstr with
    | some i => .ok i
    | none => .error .illegalCommand
  | .bus desc data =>
    match decodeDescriptor desc data with
    | .ok i => .ok i
    | .error r => .error (.access r)

/-- The descriptor of an access in the window (R91): `WR` above `off[5:0]`. -/
def descriptorOf (write : Bool) (off : Nat) : BitVec 7 := BitVec.ofNat 7 ((if write then 64 else 0) + off % 64)

/-- Decode an access as the bus presents it (R61, R66): outside the window it does not reach CORE, and a narrower or wider
access has no descriptor. -/
def decodeAccess (a : HostAccess) : Except AccessReject Instr :=
  if !a.inWindow then .error .outsideWindow
  else if !a.wordWide then .error .notWordWide
  else decodeDescriptor (descriptorOf a.write a.off.toNat) a.data

/-- DATA of a write access (R91); `none` for a read and for a command. -/
def Instr.writeData : Instr → Option Word
  | .wrCtrl v => some v
  | .wrDin v => some v
  | .wrStatus v => some v
  | .wrLenLo v => some v
  | .wrLenHi v => some v
  | .wrRsv5 v => some v
  | .wrRsv6 v => some v
  | .wrRsv7 v => some v
  | .wrDigest _ v => some v
  | _ => none

/-- The encoding of an instruction, from the tables of R94 and R95; a read carries no DATA. -/
def encode : Instr → Encoded
  | .nop => .command 0x00000000
  | .init => .command 0x00000001
  | .push1 => .command 0x00000102
  | .push2 => .command 0x00000202
  | .push3 => .command 0x00000302
  | .push4 => .command 0x00000402
  | .finish => .command 0x00000003
  | .rdCtrl => .bus 0x00 0
  | .rdDin => .bus 0x04 0
  | .rdStatus => .bus 0x08 0
  | .rdLenLo => .bus 0x0c 0
  | .rdLenHi => .bus 0x10 0
  | .rdRsv5 => .bus 0x14 0
  | .rdRsv6 => .bus 0x18 0
  | .rdRsv7 => .bus 0x1c 0
  | .rdDigest i => .bus (BitVec.ofNat 7 (0x20 + 4 * i.val)) 0
  | .wrCtrl v => .bus 0x40 v
  | .wrDin v => .bus 0x44 v
  | .wrStatus v => .bus 0x48 v
  | .wrLenLo v => .bus 0x4c v
  | .wrLenHi v => .bus 0x50 v
  | .wrRsv5 v => .bus 0x54 v
  | .wrRsv6 v => .bus 0x58 v
  | .wrRsv7 v => .bus 0x5c v
  | .wrDigest i v => .bus (BitVec.ofNat 7 (0x60 + 4 * i.val)) v

/-- The instruction of a row of spec/opcode_table.json whose bits are `w`. A CTRL row has 32 bits and is a command word;
a BUS row has the 7 bits of R91 in one byte, whose bit 7 no descriptor has, and DATA above that byte, 0 where the
row's bits stop (log 11). -/
def decodeTableWord (nbits w : Nat) : Option Instr :=
  let input : Option Encoded :=
    if nbits = 32 then some (.command (BitVec.ofNat 32 w))
    else if w.testBit 7 then none
    else some (.bus (BitVec.ofNat 7 w) (BitVec.ofNat 32 (w / 256)))
  match input.map decode with
  | some (.ok i) => some i
  | _ => none

end Sys2Proof
end

