-- ==== Sys2Proof/Machine/Datapath.lean ====
section
/-! DEFINITION. The combinational units of spec/40_datapath_functions.md: adder, rotate and shift units, choice, majority,
the four mixing functions, and the two constant ROMs; with the byte-order helpers of spec/00_scope.md rule R12. The names
are the source's (R16): `sigma0` and `sigma1` are the round functions, `phi0` and `phi1` the schedule functions. -/

namespace Sys2Proof

/-- `x +32 y` (R120): addition modulo 2^32, the carry dropped. -/
def add32 (x y : Word) : Word := x + y

/-- `rotr(x, n)` (R121), the amount taken modulo 32. -/
def rotr (x : Word) (n : Nat) : Word := (x >>> (n % 32)) ||| (x <<< (32 - n % 32))

/-- `x >> n` (R122): zeros enter at bit 31. -/
def shr (x : Word) (n : Nat) : Word := x >>> n

/-- `choice(x, y, z)` (R124). -/
def choice (x y z : Word) : Word := (x &&& y) ^^^ (~~~x &&& z)

/-- `majority(x, y, z)` (R125). -/
def majority (x y z : Word) : Word := (x &&& y) ^^^ (x &&& z) ^^^ (y &&& z)

/-- `sigma0(x)` (R126), the round function on `a`. -/
def sigma0 (x : Word) : Word := rotr x 2 ^^^ rotr x 13 ^^^ rotr x 22

/-- `sigma1(x)` (R127), the round function on `e`. -/
def sigma1 (x : Word) : Word := rotr x 6 ^^^ rotr x 11 ^^^ rotr x 25

/-- `phi0(x)` (R128), the schedule function on `w[t-15]`. -/
def phi0 (x : Word) : Word := rotr x 7 ^^^ rotr x 18 ^^^ shr x 3

/-- `phi1(x)` (R129), the schedule function on `w[t-2]`. -/
def phi1 (x : Word) : Word := rotr x 17 ^^^ rotr x 19 ^^^ shr x 10

/-- The recurrence of R171 on the words at distances 2, 7, 15 and 16. -/
def scheduleSum (w2 w7 w15 w16 : Word) : Word := add32 (add32 (add32 (phi1 w2) w7) (phi0 w15)) w16

/-- Half a column of the table of R132: the eight words `K[8r .. 8r+8)`. -/
def kOctet (r : Nat) : List Word :=
  match r with
  | 0 => [0x428a2f98, 0x71374491, 0xb5c0fbcf, 0xe9b5dba5, 0x3956c25b, 0x59f111f1, 0x923f82a4, 0xab1c5ed5]
  | 1 => [0xd807aa98, 0x12835b01, 0x243185be, 0x550c7dc3, 0x72be5d74, 0x80deb1fe, 0x9bdc06a7, 0xc19bf174]
  | 2 => [0xe49b69c1, 0xefbe4786, 0x0fc19dc6, 0x240ca1cc, 0x2de92c6f, 0x4a7484aa, 0x5cb0a9dc, 0x76f988da]
  | 3 => [0x983e5152, 0xa831c66d, 0xb00327c8, 0xbf597fc7, 0xc6e00bf3, 0xd5a79147, 0x06ca6351, 0x14292967]
  | 4 => [0x27b70a85, 0x2e1b2138, 0x4d2c6dfc, 0x53380d13, 0x650a7354, 0x766a0abb, 0x81c2c92e, 0x92722c85]
  | 5 => [0xa2bfe8a1, 0xa81a664b, 0xc24b8b70, 0xc76c51a3, 0xd192e819, 0xd6990624, 0xf40e3585, 0x106aa070]
  | 6 => [0x19a4c116, 0x1e376c08, 0x2748774c, 0x34b0bcb5, 0x391c0cb3, 0x4ed8aa4a, 0x5b9cca4f, 0x682e6ff3]
  | 7 => [0x748f82ee, 0x78a5636f, 0x84c87814, 0x8cc70208, 0x90befffa, 0xa4506ceb, 0xbef9a3f7, 0xc67178f2]
  | _ => []

/-- `K[t]` (R132): the round-constant ROM, 64 words deep. ROUND reads it only at `t < 64` (R195). -/
def kRom (t : Nat) : Word := (kOctet (t / 8)).getD (t % 8) 0

/-- `IV[0..7]` (R133). -/
def iv : Words8 :=
  ⟨0x6a09e667, 0xbb67ae85, 0x3c6ef372, 0xa54ff53a, 0x510e527f, 0x9b05688c, 0x1f83d9ab, 0x5be0cd19⟩

/-- Register `i` of a file of eight (R20, R21). -/
def Words8.get (x : Words8) (i : Fin 8) : Word :=
  match i with
  | 0 => x.a
  | 1 => x.b
  | 2 => x.c
  | 3 => x.d
  | 4 => x.e
  | 5 => x.f
  | 6 => x.g
  | 7 => x.h

/-- `x[i] +32 y[i]`, index for index (R190, R196). -/
def Words8.add (x y : Words8) : Words8 :=
  ⟨add32 x.a y.a, add32 x.b y.b, add32 x.c y.c, add32 x.d y.d, add32 x.e y.e, add32 x.f y.f, add32 x.g y.g, add32 x.h y.h⟩

/-- `RoundFn(V, k, w)` (R191). -/
def roundFn (x : Words8) (k w : Word) : Words8 :=
  let t1 := add32 (add32 (add32 (add32 x.h (sigma1 x.e)) (choice x.e x.f x.g)) k) w
  let t2 := add32 (sigma0 x.a) (majority x.a x.b x.c)
  ⟨add32 t1 t2, x.a, x.b, x.c, add32 x.d t1, x.e, x.f, x.g⟩

/-- `be32(b0, b1, b2, b3)` (R12): the first byte is the most significant. -/
def be32 (b0 b1 b2 b3 : Byte) : Word := b0 ++ b1 ++ b2 ++ b3

/-- `be64(v)[k]` (R12): `v[63-8k : 56-8k]`. -/
def be64Byte (v : Length) (k : Nat) : Byte := v.extractLsb' (56 - 8 * k) 8

/-- `be64(v)` (R12): eight bytes, the most significant first. -/
def be64 (v : Length) : List Byte := (List.range 8).map (be64Byte v)

/-- Schedule word `j < 16` of a block: `be32(B[4j..4j+3])` (R64). -/
def blockWord (b : Block) (j : Fin 16) : Word :=
  be32 (b[4 * j.val]) (b[4 * j.val + 1]) (b[4 * j.val + 2]) (b[4 * j.val + 3])

/-- The sixteen words of a block (R64). -/
def blockWords (b : Block) : Vector Word 16 := Vector.ofFn (blockWord b)

end Sys2Proof
end

