-- ==== Sys2Proof/Machine/State.lean ====
section
/-! DEFINITION. The state of the machine: CORE's own (spec/10_state.md), the host's program and scratch registers
(spec/30_encoding.md rule R101), the word the last read returned, and the order in which the agents move
(spec/44_host_interface.md rule R241). -/

namespace Sys2Proof.Machine

/-- `TAIL` (R30): what FOLD does after folding the block in flight. Its fourth encoding is never held (spec/93 U16). -/
inductive Tail where
  /-- `NONE`, 0: the block came from a full buffer, and the sequencer goes idle. -/
  | none
  /-- `LAST`, 1: the block is the final padded block, and DONE is set. -/
  | last
  /-- `PAD2`, 2: the second padding block is loaded next. -/
  | pad2
deriving DecidableEq, Repr

/-- The four error flags (R28). -/
inductive ErrorFlag where
  /-- `ERR_CMD` (R260). -/
  | cmd
  /-- `ERR_BUSY` (R261). -/
  | busy
  /-- `ERR_SEQ` (R263). -/
  | seq
  /-- `ERR_LEN` (R264). -/
  | len
deriving DecidableEq, Repr

/-- CORE's state (spec/10_state.md). -/
structure CoreState where
  /-- `H[0..7]` (R20). -/
  h : Words8
  /-- `V[0..7]`, the working variables (R21). -/
  v : Words8
  /-- `W[0..15]`, the schedule window (R22). -/
  w : Vector Word 16
  /-- `BUF[0..63]`, the block buffer (R23). -/
  buf : Block
  /-- `BCNT`, 7 bits with the values 0..63 (R23; log 7). -/
  bcnt : Fin 64
  /-- `DIN` (R24). -/
  din : Word
  /-- `LEN`, in bits (R25). -/
  len : Length
  /-- `BUSY` (R26). -/
  busy : Bool
  /-- `DONE` (R27). -/
  done : Bool
  /-- `ERR_CMD` (R28). -/
  errCmd : Bool
  /-- `ERR_BUSY` (R28). -/
  errBusy : Bool
  /-- `ERR_SEQ` (R28). -/
  errSeq : Bool
  /-- `ERR_LEN` (R28). -/
  errLen : Bool
  /-- `t`, 7 bits with the values 0..64 (R29; log 7). -/
  t : Fin 65
  /-- `TAIL` (R30). -/
  tail : Tail
deriving DecidableEq, Repr

/-- The host: its program, its position in it, and its scratch registers `r0..r15` (R101). -/
structure HostState where
  prog : List HostOp
  pc : Nat
  regs : Vector Word 16
deriving DecidableEq, Repr

/-- The order in which the agents move: plain data, from which the turns to come are read (R241; log 1). -/
structure Schedule where
  /-- Who makes the next transitions, in order. -/
  turns : List Turn
  /-- Which free order the machine follows once `turns` is used up. -/
  order : Nat
  /-- How many batches of that order have been taken. -/
  batch : Nat
deriving DecidableEq, Repr

/-- The whole machine. -/
structure State where
  core : CoreState
  host : HostState
  /-- The word the last read access returned to the host (R221; log 4). -/
  rdata : Word
  /-- Who makes the transitions to come (log 1). -/
  sched : Schedule
deriving DecidableEq, Repr

/-- CORE takes no traps, and nothing stops it with a fault (R271): there is none. -/
inductive Fault where
deriving DecidableEq, Repr

/-- Why a step has no meaning. -/
inductive Refusal where
  /-- Raised by `exec` for an instruction with no meaning yet. Safe. -/
  | notModelled (mnemonic : String)
  /-- Raised by the host's turn for an access at an offset that is not a multiple of 4 (R66). Safe. -/
  | misalignedAccess
  /-- Raised by the host's turn for an access that is not 32 bits wide (R66). Safe. -/
  | notWordAccess
  /-- Raised by the host's turn for an address outside the window (R62, spec/93 U11). Safe. -/
  | outsideWindow
deriving DecidableEq, Repr

/-- CORE after reset (R290). `V`, `W` and `BUF` are unspecified there; the model has zeros (log 3). -/
def CoreState.reset : CoreState where
  h := iv
  v := ⟨0, 0, 0, 0, 0, 0, 0, 0⟩
  w := Vector.replicate 16 0
  buf := Vector.replicate 64 0
  bcnt := 0
  din := 0
  len := 0
  busy := false
  done := false
  errCmd := false
  errBusy := false
  errSeq := false
  errLen := false
  t := 0
  tail := .none

/-- The host with no program: its registers start at 0 (spec/95_test_vectors.md section 9; log 2, log 8). -/
def HostState.reset : HostState := ⟨[], 0, Vector.replicate 16 0⟩

/-- The machine after reset. -/
def State.reset : State := ⟨CoreState.reset, HostState.reset, 0, ⟨[], 0, 0⟩⟩

end Sys2Proof.Machine
end

