-- ==== Sys2Proof/Machine/Flags.lean ====
section
/-! DEFINITION. The STATUS word and the error flags (spec/10_state.md R26 to R32, spec/60_exceptions.md R265). -/

namespace Sys2Proof.Machine

/-- A flag as a word of 0 or 1. -/
def flagWord (b : Bool) : Word := if b then 1 else 0

/-- STATUS as it reads (R32). -/
def statusWord (c : CoreState) : Word :=
  (BitVec.ofNat 32 c.bcnt.val <<< 8) ||| (flagWord c.errLen <<< 5) ||| (flagWord c.errSeq <<< 4) |||
    (flagWord c.errBusy <<< 3) ||| (flagWord c.errCmd <<< 2) ||| (flagWord c.done <<< 1) ||| flagWord c.busy

/-- `ERR_ANY` (R28). -/
def errAny (c : CoreState) : Bool := c.errCmd || c.errBusy || c.errSeq || c.errLen

/-- The cause code of an error: its STATUS bit index (R265). -/
def causeCode : ErrorFlag → Nat
  | .cmd => 2
  | .busy => 3
  | .seq => 4
  | .len => 5

/-- The flag itself. -/
def errorFlag (e : ErrorFlag) (c : CoreState) : Bool :=
  match e with
  | .cmd => c.errCmd
  | .busy => c.errBusy
  | .seq => c.errSeq
  | .len => c.errLen

end Sys2Proof.Machine
end

