-- ==== Sys2Proof/Machine/Operands.lean ====
section
/-! DEFINITION. Operands: the byte lanes of DIN (spec/20_memory.md R67), the value each register slot of the window reads
as (spec/44_host_interface.md R221 to R228), and the words of the schedule window (spec/42_scheduler.md R172). -/

namespace Sys2Proof.Machine

/-- Byte `k` of a PUSH, `DIN[31-8k : 24-8k]` (R67, R154). -/
def dinByte (din : Word) (k : Nat) : Byte := din.extractLsb' (24 - 8 * k) 8

/-- The first `nb` bytes of DIN, in message order (R67). -/
def dinBytes (nb : Nat) (din : Word) : List Byte := (List.range nb).map (dinByte din)

/-- `LEN[31:0]` (R225). -/
def lenLo (c : CoreState) : Word := c.len.extractLsb' 0 32

/-- `LEN[63:32]` (R227). -/
def lenHi (c : CoreState) : Word := c.len.extractLsb' 32 32

/-- What `BusRead` of register slot `reg` returns (R221, R61): `off[5:2]` selects the register. -/
def windowRead (c : CoreState) (reg : Fin 16) : Word :=
  match reg with
  | 0 => 0
  | 1 => c.din
  | 2 => statusWord c
  | 3 => lenLo c
  | 4 => lenHi c
  | 5 => 0
  | 6 => 0
  | 7 => 0
  | n => c.h.get (Fin.ofNat 8 n.val)

/-- `W[n mod 16]` (R172). -/
def windowWord (w : Vector Word 16) (n : Nat) : Word := w[n % 16]'(Nat.mod_lt n (by decide))

/-- `W[n mod 16] <- x` (R172). -/
def setWindowWord (w : Vector Word 16) (n : Nat) (x : Word) : Vector Word 16 :=
  w.set (n % 16) x (Nat.mod_lt n (by decide))

end Sys2Proof.Machine
end

