-- ==== Sys2Proof/Machine/Ops.lean ====
section
/-! DEFINITION. The shared operations on CORE's state: raising an error, LOAD, the padder, the core steps ROUND and FOLD,
INIT, the checks every PUSH and FINISH passes first, and reset. -/

namespace Sys2Proof.Machine

/-- `raise ErrorFlag(X)` (R14, R262): the flag becomes 1 and nothing else changes. CORE takes no traps (R271): this is all
that an error does, so it stands where another machine has its exception entry. INIT and reset are the way back
(R272). -/
def raiseError (e : ErrorFlag) (c : CoreState) : CoreState :=
  match e with
  | .cmd => { c with errCmd := true }
  | .busy => { c with errBusy := true }
  | .seq => { c with errSeq := true }
  | .len => { c with errLen := true }

/-- `LOAD(B)` (R194). The caller writes TAIL. -/
def load (b : Block) (c : CoreState) : CoreState :=
  { c with w := blockWords b, v := c.h, t := 0, busy := true }

/-- One byte of `PushBytes` (R154). The byte that fills the buffer LOADs the block at once. -/
def pushByte (x : Byte) (c : CoreState) : CoreState :=
  let buf := c.buf.set c.bcnt.val x
  let c' := { c with buf := buf, len := c.len + 8 }
  if h : c.bcnt.val + 1 < 64 then { c' with bcnt := ⟨c.bcnt.val + 1, h⟩ }
  else { load buf c' with tail := .none, bcnt := 0 }

/-- `PushBytes(nb)` (R154): the first `nb` bytes of DIN, first byte first. -/
def pushBytes (nb : Nat) (c : CoreState) : CoreState :=
  (List.range nb).foldl (fun c' k => pushByte (dinByte c.din k) c') c

/-- Byte `k` of the buffer after the padding writes of R156, with `n = BCNT`. -/
def paddedByte (c : CoreState) (k : Fin 64) : Byte :=
  if k.val < c.bcnt.val then c.buf[k]
  else if k = c.bcnt then 0x80
  else if c.bcnt.val ≤ 55 ∧ 56 ≤ k.val then be64Byte c.len (k.val - 56)
  else 0

/-- `PadFinal()` (R156): one padding block when `BCNT <= 55`, else the first of two. -/
def padFinal (c : CoreState) : CoreState :=
  let buf := Vector.ofFn (paddedByte c)
  { load buf { c with buf := buf } with
    tail := if c.bcnt.val ≤ 55 then .last else .pad2, bcnt := 0 }

/-- `PadBlock2` (R157): 56 zero bytes and the length. -/
def padBlock2 (len : Length) : Block :=
  Vector.ofFn fun k : Fin 64 => if k.val < 56 then 0 else be64Byte len (k.val - 56)

/-- The window after `SchedWord(t)` (R172): slot `t mod 16` is derived when `t >= 16`. -/
def schedWindow (t : Nat) (w : Vector Word 16) : Vector Word 16 :=
  if 16 ≤ t then
    setWindowWord w t (scheduleSum (windowWord w (t - 2)) (windowWord w (t - 7)) (windowWord w (t - 15)) (windowWord w t))
  else w

/-- `ROUND(t)` (R195), for `t < 64`. -/
def roundStep (c : CoreState) (h : c.t.val < 64) : CoreState :=
  let w := schedWindow c.t.val c.w
  { c with
    w := w
    v := roundFn c.v (kRom c.t.val) (windowWord w c.t.val)
    t := ⟨c.t.val + 1, Nat.succ_lt_succ h⟩ }

/-- `FOLD` (R196). With `TAIL = PAD2` the LOAD of the second padding block reads the folded `H`. -/
def foldStep (c : CoreState) : CoreState :=
  let c' := { c with h := c.h.add c.v, t := 0 }
  match c.tail with
  | .none => { c' with busy := false }
  | .last => { c' with busy := false, done := true, tail := .none }
  | .pad2 => { load (padBlock2 c.len) c' with tail := .last }

/-- The sequencer's step (R33, R240): none while `BUSY = 0`, ROUND while `t < 64`, FOLD at `t = 64`. -/
def sequencerStep (c : CoreState) : CoreState :=
  if c.busy then
    if h : c.t.val < 64 then roundStep c h else foldStep c
  else c

/-- `Init()` (R232): DIN, V, W and BUF are not changed. -/
def initCore (c : CoreState) : CoreState :=
  { c with
    h := iv, len := 0, bcnt := 0, busy := false, done := false, t := 0, tail := .none
    errCmd := false, errBusy := false, errSeq := false, errLen := false }

/-- `LEN + 8 * nb` fits the length field (R231, R264). -/
def lengthFits (nb : Nat) (c : CoreState) : Bool := decide (c.len.toNat + 8 * nb ≤ Config.maxLength)

/-- The checks of R231 on PUSH and FINISH, in their order of priority (R270): busy, already in error, done, length. -/
def checkedCommand (fits : Bool) (act : CoreState → CoreState) (c : CoreState) : CoreState :=
  if c.busy then raiseError .busy c
  else if errAny c then c
  else if c.done then raiseError .seq c
  else if fits then act c
  else raiseError .len c

/-- PUSH with its checks (R231, R234). -/
def pushCommand (nb : Nat) (c : CoreState) : CoreState := checkedCommand (lengthFits nb c) (pushBytes nb) c

/-- FINISH with its checks (R231, R235): it has no length check. -/
def finishCommand (c : CoreState) : CoreState := checkedCommand true padFinal c

/-- The effect of a decoded command (R231). -/
def performCommand : Command → CoreState → CoreState
  | .illegal, c => raiseError .cmd c
  | .nop, c => c
  | .init, c => initCore c
  | .push nb, c => pushCommand nb c
  | .finish, c => finishCommand c

/-- An access that changes CORE's state by `f`; the host and the order of turns are untouched. -/
def onCore (f : CoreState → CoreState) (s : State) : Host.Outcome State Fault Refusal :=
  .next { s with core := f s.core }

/-- A read that returns `x`: CORE's state is untouched (R70, R221). -/
def returnWord (x : Word) (s : State) : Host.Outcome State Fault Refusal := .next { s with rdata := x }

/-- A write that has no effect (R229). -/
def ignoreWrite (s : State) : Host.Outcome State Fault Refusal := .next s

/-- The platform applies reset (R290, R291). The host is not part of CORE and keeps its state (log 3). -/
def platformReset (s : State) : State := { s with core := CoreState.reset }

end Sys2Proof.Machine
end

