-- ==== Sys2Proof/Machine/Commands.lean ====
section
/-! DEFINITION. The seven command words (spec/44_host_interface.md R232 to R235) and the CTRL write that carries them
(R231). -/

namespace Sys2Proof.Machine

/-- NOP (R233): no effect in any state. -/
def execNop (s : State) : Host.Outcome State Fault Refusal := onCore (performCommand .nop) s

/-- INIT (R232). -/
def execInit (s : State) : Host.Outcome State Fault Refusal := onCore (performCommand .init) s

/-- PUSH 1 (R234). -/
def execPush1 (s : State) : Host.Outcome State Fault Refusal := onCore (performCommand (.push 1)) s

/-- PUSH 2 (R234). -/
def execPush2 (s : State) : Host.Outcome State Fault Refusal := onCore (performCommand (.push 2)) s

/-- PUSH 3 (R234). -/
def execPush3 (s : State) : Host.Outcome State Fault Refusal := onCore (performCommand (.push 3)) s

/-- PUSH 4 (R234). -/
def execPush4 (s : State) : Host.Outcome State Fault Refusal := onCore (performCommand (.push 4)) s

/-- FINISH (R235). -/
def execFinish (s : State) : Host.Outcome State Fault Refusal := onCore (performCommand .finish) s

/-- WR CTRL (R231): the word is decoded and the command performed; an illegal word sets ERR_CMD (R260). -/
def execWrCtrl (v : Word) (s : State) : Host.Outcome State Fault Refusal := onCore (performCommand (decodeCommand v)) s

end Sys2Proof.Machine
end

