-- ==== Sys2Proof/Machine/Reads.lean ====
section
/-! DEFINITION. The reads of the register window (spec/44_host_interface.md R221 to R228). No read changes CORE's state. -/

namespace Sys2Proof.Machine

/-- RD CTRL (R222): CTRL holds no value and reads as 0. -/
def execRdCtrl (s : State) : Host.Outcome State Fault Refusal := returnWord (windowRead s.core 0) s

/-- RD DIN (R223). -/
def execRdDin (s : State) : Host.Outcome State Fault Refusal := returnWord (windowRead s.core 1) s

/-- RD STATUS (R224). -/
def execRdStatus (s : State) : Host.Outcome State Fault Refusal := returnWord (windowRead s.core 2) s

/-- RD LEN_LO (R225). -/
def execRdLenLo (s : State) : Host.Outcome State Fault Refusal := returnWord (windowRead s.core 3) s

/-- RD LEN_HI (R227). -/
def execRdLenHi (s : State) : Host.Outcome State Fault Refusal := returnWord (windowRead s.core 4) s

/-- RD RSV5 (R228). -/
def execRdRsv5 (s : State) : Host.Outcome State Fault Refusal := returnWord (windowRead s.core 5) s

/-- RD RSV6 (R228). -/
def execRdRsv6 (s : State) : Host.Outcome State Fault Refusal := returnWord (windowRead s.core 6) s

/-- RD RSV7 (R228). -/
def execRdRsv7 (s : State) : Host.Outcome State Fault Refusal := returnWord (windowRead s.core 7) s

/-- RD DIGESTi (R226): `H[i]` in every state. -/
def execRdDigest (i : Fin 8) (s : State) : Host.Outcome State Fault Refusal :=
  returnWord (windowRead s.core (i.natAdd 8)) s

end Sys2Proof.Machine
end

