-- ==== Sys2Proof/Machine/Writes.lean ====
section
/-! DEFINITION. The writes of the register window that are no command: DIN (spec/44_host_interface.md R230) and the
ignored writes (R229). -/

namespace Sys2Proof.Machine

/-- `DIN <- v` (R230). -/
def writeDin (v : Word) (c : CoreState) : CoreState := { c with din := v }

/-- WR DIN (R230): legal in every state, `BUSY = 1` included. -/
def execWrDin (v : Word) (s : State) : Host.Outcome State Fault Refusal := onCore (writeDin v) s

/-- WR STATUS (R229): ignored. -/
def execWrStatus (_v : Word) (s : State) : Host.Outcome State Fault Refusal := ignoreWrite s

/-- WR LEN_LO (R229): ignored. -/
def execWrLenLo (_v : Word) (s : State) : Host.Outcome State Fault Refusal := ignoreWrite s

/-- WR LEN_HI (R229): ignored. -/
def execWrLenHi (_v : Word) (s : State) : Host.Outcome State Fault Refusal := ignoreWrite s

/-- WR RSV5 (R229): ignored. -/
def execWrRsv5 (_v : Word) (s : State) : Host.Outcome State Fault Refusal := ignoreWrite s

/-- WR RSV6 (R229): ignored. -/
def execWrRsv6 (_v : Word) (s : State) : Host.Outcome State Fault Refusal := ignoreWrite s

/-- WR RSV7 (R229): ignored. -/
def execWrRsv7 (_v : Word) (s : State) : Host.Outcome State Fault Refusal := ignoreWrite s

/-- WR DIGESTi (R229): ignored. -/
def execWrDigest (_i : Fin 8) (_v : Word) (s : State) : Host.Outcome State Fault Refusal := ignoreWrite s

end Sys2Proof.Machine
end

