-- ==== Sys2Proof/Machine/Dispatch.lean ====
section
/-! DEFINITION. One arm for each row of spec/opcode_table.json, in the table's order. -/

namespace Sys2Proof.Machine

def exec (i : Instr) (s : State) : Host.Outcome State Fault Refusal :=
  match i with
  -- the command words
  | .nop => Sys2Proof.Machine.execNop s
  | .init => Sys2Proof.Machine.execInit s
  | .push1 => Sys2Proof.Machine.execPush1 s
  | .push2 => Sys2Proof.Machine.execPush2 s
  | .push3 => Sys2Proof.Machine.execPush3 s
  | .push4 => Sys2Proof.Machine.execPush4 s
  | .finish => Sys2Proof.Machine.execFinish s
  -- the reads
  | .rdCtrl => Sys2Proof.Machine.execRdCtrl s
  | .rdDin => Sys2Proof.Machine.execRdDin s
  | .rdStatus => Sys2Proof.Machine.execRdStatus s
  | .rdLenLo => Sys2Proof.Machine.execRdLenLo s
  | .rdLenHi => Sys2Proof.Machine.execRdLenHi s
  | .rdRsv5 => Sys2Proof.Machine.execRdRsv5 s
  | .rdRsv6 => Sys2Proof.Machine.execRdRsv6 s
  | .rdRsv7 => Sys2Proof.Machine.execRdRsv7 s
  | .rdDigest k => Sys2Proof.Machine.execRdDigest k s
  -- the writes
  | .wrCtrl v => Sys2Proof.Machine.execWrCtrl v s
  | .wrDin v => Sys2Proof.Machine.execWrDin v s
  | .wrStatus v => Sys2Proof.Machine.execWrStatus v s
  | .wrLenLo v => Sys2Proof.Machine.execWrLenLo v s
  | .wrLenHi v => Sys2Proof.Machine.execWrLenHi v s
  | .wrRsv5 v => Sys2Proof.Machine.execWrRsv5 v s
  | .wrRsv6 v => Sys2Proof.Machine.execWrRsv6 v s
  | .wrRsv7 v => Sys2Proof.Machine.execWrRsv7 v s
  | .wrDigest k v => Sys2Proof.Machine.execWrDigest k v s

end Sys2Proof.Machine
end

