-- ==== Sys2Proof/Machine/HostAgent.lean ====
section
/-! DEFINITION. The host agent (spec/30_encoding.md R101) and the choice of who moves (spec/44_host_interface.md R241,
R245): the operation at the host's position, moving past it, what a read leaves in a scratch register, branches, and
the pseudo-instructions of R102. -/

namespace Sys2Proof.Machine

/-- The turns of one batch of a free order: whoever moves before the sequencer, then the sequencer. Every weakly fair run is
some sequence of such batches, a turn of an idle sequencer being no step (R241, R245; log 1). -/
def freshTurns (order batch : Nat) : List Turn := Config.turnBatch order batch ++ [.core]

/-- Who moves: the first of `turns`, and once they are used up the first of the next batch. -/
def Schedule.first (q : Schedule) : Turn :=
  match q.turns with
  | turn :: _ => turn
  | [] => (freshTurns q.order q.batch).headD .core

/-- What is left when that turn is taken. -/
def Schedule.rest (q : Schedule) : Schedule :=
  match q.turns with
  | _ :: turns => { q with turns := turns }
  | [] => { q with turns := (freshTurns q.order q.batch).tail, batch := q.batch + 1 }

/-- Who moves in this state. -/
def nextTurn (s : State) : Turn := s.sched.first

/-- The turn is taken. -/
def takeTurn (s : State) : State := { s with sched := s.sched.rest }

/-- The operation at the host's position; past the end of the program the host does nothing more (log 2). -/
def currentOp (s : State) : HostOp := s.host.prog.getD s.host.pc .halt

/-- The host goes to a position of its program. -/
def hostGoto (n : Nat) (s : State) : State := { s with host := { s.host with pc := n } }

/-- The host moves past its operation. -/
def hostAdvance (s : State) : State := hostGoto (s.host.pc + 1) s

/-- `r<k>` takes the word the read returned (R101). -/
def deliver (k : Fin 16) (s : State) : State :=
  { s with host := { s.host with regs := s.host.regs.set k.val s.rdata } }

/-- A branch of R101: to the label when `taken`, else past the branch. -/
def hostBranch (taken : Bool) (label : Nat) (s : State) : State := if taken then hostGoto label s else hostAdvance s

/-- Bit `bit` of `r<k>` (R101). -/
def hostBit (k : Fin 16) (bit : Fin 32) (s : State) : Bool := (s.host.regs[k]).getLsbD bit.val

/-- `f` on a next state; a stop stays as it is. -/
def mapNext (f : State → State) : Host.Outcome State Fault Refusal → Host.Outcome State Fault Refusal
  | .next s => .next (f s)
  | .fault r => .fault r
  | .refused r => .refused r

/-- An access outside the interface is refused, each kind by its name (R62, R66). -/
def refusalOf : AccessReject → Refusal
  | .misaligned => .misalignedAccess
  | .notWordWide => .notWordAccess
  | .outsideWindow => .outsideWindow

/-- Put `op` at the host's position, where its next turn finds it. -/
def placeOp (op : HostOp) (s : State) : State :=
  let p := s.host.prog
  let n := s.host.pc
  { s with host := { s.host with
      prog := p.take n ++ List.replicate (n - p.length) .halt ++ [op] ++ p.drop (n + 1) } }

/-- The host operation that presents a table word to CORE (log 11): a command word is a CTRL write of it; a descriptor is
an access to its offset, a read into `r0`. A byte whose bit 7 is set is no descriptor, and its offset lies outside
the window. -/
def tableOp (nbits w : Nat) : HostOp :=
  if nbits = 32 then .wr 0 Config.busBytes (BitVec.ofNat 32 w)
  else
    let off : Nat := w % 64 + (if w.testBit 7 then 64 else 0)
    if w.testBit 6 then .wr off Config.busBytes (BitVec.ofNat 32 (w / 256)) else .rd off Config.busBytes 0

/-- `off(CTRL)` (R95). -/
def offCtrl : Int := 0x00

/-- `off(DIN)` (R95). -/
def offDin : Int := 0x04

/-- `off(STATUS)` (R95). -/
def offStatus : Int := 0x08

/-- `off(DIGESTi)` (R95). -/
def offDigest (i : Fin 8) : Int := 0x20 + 4 * (i.val : Int)

/-- `WR <reg>, v` as the notation of R101 has it: a 32-bit access. -/
def wrOp (off : Int) (v : Word) : HostOp := .wr off Config.busBytes v

/-- `RD <reg> -> r<k>` (R101). -/
def rdOp (off : Int) (k : Fin 16) : HostOp := .rd off Config.busBytes k

/-- `NOP` (R102). -/
def nopOps : List HostOp := [wrOp offCtrl 0x00000000]

/-- `INIT` (R102). -/
def initOps : List HostOp := [wrOp offCtrl 0x00000001]

/-- `PUSH n` (R102): `(n << 8) | 0x2`. The notation has it for `n = 1..4` only; that `n = 0` also expands, to the illegal
word `0x00000002`, is a design choice of the model (log 14). -/
def pushOps (n : Fin 5) : List HostOp := [wrOp offCtrl ((BitVec.ofNat 32 n.val <<< 8) ||| 2)]

/-- `FINISH` (R102). -/
def finishOps : List HostOp := [wrOp offCtrl 0x00000003]

/-- `PUSHB n, v` (R102), with the same choice for `n = 0` (log 14). -/
def pushbOps (n : Fin 5) (v : Word) : List HostOp := wrOp offDin v :: pushOps n

/-- `PUSHW v` (R102). -/
def pushwOps (v : Word) : List HostOp := pushbOps 4 v

/-- `WAIT` (R102), standing at position `at_` of its program: poll STATUS until BUSY is 0. -/
def waitOps (at_ : Nat) : List HostOp := [rdOp offStatus 15, .bbs 15 0 at_]

/-- `WAITDONE` (R102): the same poll; DONE and the errors are then in `r15`. -/
def waitdoneOps (at_ : Nat) : List HostOp := waitOps at_

/-- `READDIG` (R102): DIGEST0 to DIGEST7 into `r0` to `r7`. -/
def readdigOps : List HostOp := (List.finRange 8).map fun i => rdOp (offDigest i) (i.castLE (by decide))

end Sys2Proof.Machine
end

