-- ==== Sys2Proof/Machine/Turns.lean ====
section
/-! DEFINITION. What each agent does with its turn (spec/00_scope.md R7): the host performs one operation of its program,
the sequencer one core step, the platform a reset. -/

namespace Sys2Proof.Machine

/-- One access: decoded, then performed as the host moves past it. An access outside the interface is refused (R66). -/
def performAccess (a : HostAccess) (s : State) : Host.Outcome State Fault Refusal :=
  match decodeAccess a with
  | .ok i => exec i (hostAdvance s)
  | .error r => .refused (refusalOf r)

/-- The host's turn (R101). -/
def hostTurn (s : State) : Host.Outcome State Fault Refusal :=
  match currentOp s with
  | .wr off bytes data => performAccess ⟨true, off, bytes, data⟩ s
  | .rd off bytes k => mapNext (deliver k) (performAccess ⟨false, off, bytes, 0⟩ s)
  | .bbs k bit label => .next (hostBranch (hostBit k bit s) label s)
  | .bbc k bit label => .next (hostBranch (!hostBit k bit s) label s)
  | .halt => .next s

/-- The sequencer's turn (R240). -/
def coreTurn (s : State) : State := { s with core := sequencerStep s.core }

/-- The turn of an agent. -/
def takeStep (who : Turn) (s : State) : Host.Outcome State Fault Refusal :=
  match who with
  | .host => hostTurn s
  | .core => .next (coreTurn s)
  | .reset => .next (platformReset s)

end Sys2Proof.Machine
end

