-- ==== Sys2Proof/Machine/Step.lean ====
section
/-! DEFINITION. One transition of the machine: the agent whose turn it is moves (spec/44_host_interface.md R241). -/

namespace Sys2Proof.Machine

/-- One transition (R7, R72, R241). -/
def step (s : State) : Host.Outcome State Fault Refusal := takeStep (nextTurn s) (takeTurn s)

/-- `s` with a table word placed as the host's next operation, and the host's turn next (log 8, log 11). -/
def State.withFetchWord (s : State) (nbits w : Nat) : State :=
  { placeOp (tableOp nbits w) s with sched := { s.sched with turns := .host :: s.sched.turns } }

end Sys2Proof.Machine
end

