-- ==== Sys2Proof/Machine/System.lean ====
section
/-! DEFINITION. Several CORE instances (spec/60_exceptions.md R283): each has its own window, its own copy of all the state
and its own host; N_INSTANCES (spec/00_scope.md R9) is the length of the list (log 12). Where the windows
of the several instances lie is open to the platform: an instance is picked by its index and not by an address (log 15). Each instance has a schedule, so two
can follow different free orders. -/

namespace Sys2Proof.Machine

/-- One transition of instance `k`. That `k` is its index in the list, and that its host holds offsets from its own
window's base, are design choices of the model (log 15); so is that an index which no instance has passes and changes nothing,
where the spec gives it no meaning (log 16). -/
def systemStep (k : Nat) (sys : List State) : Host.Outcome (List State) Fault Refusal :=
  match sys[k]? with
  | none => .next sys
  | some s =>
    match step s with
    | .next t => .next (sys.set k t)
    | .fault r => .fault r
    | .refused r => .refused r

end Sys2Proof.Machine
end

