-- ==== Sys2Proof/Machine/Sha256.lean ====
section
/-! DEFINITION. The functions CORE computes, as the source gives them on whole messages: `pad` (spec/41_padder.md R150),
`expand` (spec/42_scheduler.md R170), `compress` and `digest` (spec/43_compressor.md R190, R192), and the host's rendering
of a digest (R198). The machine never calls them; claims say that it agrees with them. -/

namespace Sys2Proof

/-- Step 3 of R150, at most `fuel` bytes of it: append zero bytes until the length is 56 modulo 64. -/
def padZeros : Nat → List Byte → List Byte
  | 0, p => p
  | fuel + 1, p => if p.length % 64 = 56 then p else padZeros fuel (p ++ [0])

/-- `pad(m)` (R150). Step 3 never needs more than 63 bytes. The 64-bit length is `m`'s for messages within the bound
of R152 (log 13). -/
def pad (m : List Byte) : List Byte :=
  padZeros 63 (m ++ [0x80]) ++ be64 (BitVec.ofNat 64 (8 * m.length))

/-- The block `p[64k .. 64k+64)` of a byte sequence (R192). -/
def blockAt (p : List Byte) (k : Nat) : Block := Vector.ofFn fun j => p.getD (64 * k + j.val) 0

/-- One more schedule word: R171 on the words already derived. -/
def nextScheduleWord (w : List Word) : Word :=
  let t := w.length
  scheduleSum (w.getD (t - 2) 0) (w.getD (t - 7) 0) (w.getD (t - 15) 0) (w.getD (t - 16) 0)

/-- `n` more schedule words. -/
def extendSchedule : Nat → List Word → List Word
  | 0, w => w
  | n + 1, w => extendSchedule n (w ++ [nextScheduleWord w])

/-- `expand(B)` (R170): 16 words loaded, 48 derived. -/
def expand (b : Block) : List Word := extendSchedule 48 (blockWords b).toList

/-- The working variables after rounds `0 .. n-1` of a block with schedule `w`, from `x` (R190). -/
def roundsFrom (w : List Word) (x : Words8) : Nat → Words8
  | 0 => x
  | n + 1 => roundFn (roundsFrom w x n) (kRom n) (w.getD n 0)

/-- `compress(Hin, B)` (R190). -/
def compress (hin : Words8) (b : Block) : Words8 := hin.add (roundsFrom (expand b) hin 64)

/-- The chaining value after the first `n` blocks of `p` (R192, R193). -/
def chain (p : List Byte) : Nat → Words8
  | 0 => iv
  | n + 1 => compress (chain p n) (blockAt p n)

/-- `digest(m)` (R192). -/
def digest (m : List Byte) : Words8 := chain (pad m) ((pad m).length / 64)

/-- The hexadecimal digit of a value below 16, over `0-9a-f` (R198). -/
def hexDigit (n : Nat) : Char := "0123456789abcdef".toList.getD n '0'

/-- `hex8(x)` (R198): eight digits, the most significant first. -/
def hex8 (x : Word) : List Char := (List.range 8).map fun k => hexDigit (x.extractLsb' (28 - 4 * k) 4).toNat

/-- The text form of a digest, 64 characters (R198). It is the host's to compute. -/
def renderDigest (x : Words8) : List Char := (List.finRange 8).flatMap fun i => hex8 (x.get i)

end Sys2Proof
end

