-- ==== Sys2Proof/Safety.lean ====
section
/-! DEFINITION. The terms claims are stated in: the reachable-state invariant of spec/10_state.md R37, what the host may rely
on (spec/44_host_interface.md R246, R247), the message a run has pushed and the blocks it has loaded
(spec/41_padder.md R158, spec/43_compressor.md R197), and what the unspecified reset values may not influence
(spec/70_reset_and_hazards.md R292). -/

namespace Sys2Proof.Machine

/-- Items 1, 2, 4, 5 (its first half, whatever the error flags) and 6 of R37; item 3 is the type of `bcnt`. -/
abbrev CoreInv (c : CoreState) : Prop :=
  (c.busy = false → c.t = 0 ∧ c.tail = .none) ∧
  (c.done = true → c.busy = false) ∧
  (c.tail ≠ .none → c.busy = true ∧ c.bcnt = 0) ∧
  (c.done = false → c.tail = .none → c.bcnt.val = c.len.toNat / 8 % 64) ∧
  c.len.toNat % 8 = 0

/-- The command an instruction issues: a command word itself, or the word of a CTRL write (R18, R231). -/
def commandOf : Instr → Option Command
  | .nop => some .nop
  | .init => some .init
  | .push1 => some (.push 1)
  | .push2 => some (.push 2)
  | .push3 => some (.push 3)
  | .push4 => some (.push 4)
  | .finish => some .finish
  | .wrCtrl v => some (decodeCommand v)
  | _ => none

/-- The instructions that push `nb` bytes, each with its `nb`: the four command words, and the CTRL writes that carry
them (R94, R231). -/
def pushRows : List (Instr × Nat) :=
  [(.push1, 1), (.push2, 2), (.push3, 3), (.push4, 4),
   (.wrCtrl 0x00000102, 1), (.wrCtrl 0x00000202, 2), (.wrCtrl 0x00000302, 3), (.wrCtrl 0x00000402, 4)]

/-- The instructions that finish a message: the command word, and the CTRL write that carries it (R94, R231). -/
def finishRows : List Instr := [.finish, .wrCtrl 0x00000003]

/-- The instructions that return a word to the host (R95, WR = 0). -/
def readRows : List Instr :=
  [.rdCtrl, .rdDin, .rdStatus, .rdLenLo, .rdLenHi, .rdRsv5, .rdRsv6, .rdRsv7] ++ (List.finRange 8).map .rdDigest

/-- The step is the host's write of a CTRL word that decodes to `cmd`. -/
def issues (s : State) (cmd : Command) : Prop :=
  nextTurn s = .host ∧ ∃ v, currentOp s = .wr 0 4 v ∧ decodeCommand v = cmd

/-- `t` is `u` with the word `u` has read in `r<k>`, and nothing else changed: `r<k> <- BusRead(off(reg))` of R101. -/
def Delivered (k : Fin 16) (u t : State) : Prop :=
  t.host.regs[k] = u.rdata ∧ (∀ j : Fin 16, j ≠ k → t.host.regs[j] = u.host.regs[j]) ∧
  t.host.prog = u.host.prog ∧ t.host.pc = u.host.pc ∧ t.core = u.core ∧ t.rdata = u.rdata ∧ t.sched = u.sched

/-- A PUSH or FINISH that passes the checks of R231 and is performed. -/
def accepted (cmd : Command) (c : CoreState) : Bool :=
  match cmd with
  | .push nb => !c.busy && !errAny c && !c.done && lengthFits nb c
  | .finish => !c.busy && !errAny c && !c.done
  | _ => false

/-- STATUS[5:2] is 0 and DONE is 1: what a host checks before it trusts a digest (R246, R247). -/
def digestReady (c : CoreState) : Bool := c.done && !errAny c

/-- The computation is failed (R246). -/
def failed (c : CoreState) : Bool := errAny c

/-- A PUSH of `nb` bytes fills the buffer, so the host must wait for `BUSY = 0` after it (R300). -/
def fillsBuffer (nb : Nat) (c : CoreState) : Bool := decide (64 ≤ c.bcnt.val + nb)

/-- The schedule window of the block that the transition from `c` to `d` LOADed, if it LOADed one: only LOAD leaves
`BUSY = 1` and `t = 0` behind anew (R33, R194). -/
def loadedBy (c d : CoreState) : List (Vector Word 16) :=
  if d.busy && decide (d.t = 0) && !(c.busy && decide (c.t = 0)) then [d.w] else []

/-- `MessageRun c m closed loaded`: CORE can be in state `c` after an INIT or reset, the accepted PUSHes since then pushed
the bytes `m` (R18), a FINISH has been accepted exactly if `closed`, and the blocks LOADed since then had the words
`loaded`, in order. Host accesses and core steps come in any order (R241), and every access other than an accepted
PUSH or FINISH or an INIT may come between. -/
inductive MessageRun : CoreState → List Byte → Bool → List (Vector Word 16) → Prop
  /-- Reset begins a message (R292). -/
  | reset {c : CoreState} : c = CoreState.reset → MessageRun c [] false []
  /-- INIT begins a message, in any state (R232). -/
  | init {i : Instr} {s t : State} : commandOf i = some .init → exec i s = .next t → MessageRun t.core [] false []
  /-- An accepted PUSH appends bytes of DIN (R234). -/
  | push {i : Instr} {s t : State} {nb : Nat} {m : List Byte} {l : List (Vector Word 16)} :
      MessageRun s.core m false l → commandOf i = some (.push nb) → accepted (.push nb) s.core = true →
      exec i s = .next t → MessageRun t.core (m ++ dinBytes nb s.core.din) false (l ++ loadedBy s.core t.core)
  /-- An accepted FINISH closes the message (R235). -/
  | finish {i : Instr} {s t : State} {m : List Byte} {l : List (Vector Word 16)} :
      MessageRun s.core m false l → commandOf i = some .finish → accepted .finish s.core = true →
      exec i s = .next t → MessageRun t.core m true (l ++ loadedBy s.core t.core)
  /-- A core step (R240). -/
  | core {c : CoreState} {m : List Byte} {closed : Bool} {l : List (Vector Word 16)} :
      MessageRun c m closed l → MessageRun (sequencerStep c) m closed (l ++ loadedBy c (sequencerStep c))
  /-- Any other access, dropped commands among them. -/
  | other {i : Instr} {s t : State} {m : List Byte} {closed : Bool} {l : List (Vector Word 16)} :
      MessageRun s.core m closed l → commandOf i ≠ some .init →
      (∀ cmd, commandOf i = some cmd → accepted cmd s.core = false) →
      exec i s = .next t → MessageRun t.core m closed l

/-- Two states of CORE that differ at most in what the reset values leave unspecified (R21 to R23): V and W while no
block is in flight, and the bytes of BUF from BCNT on. -/
def CoreAgree (c d : CoreState) : Prop :=
  c.h = d.h ∧ c.bcnt = d.bcnt ∧ c.din = d.din ∧ c.len = d.len ∧ c.busy = d.busy ∧ c.done = d.done ∧
  c.errCmd = d.errCmd ∧ c.errBusy = d.errBusy ∧ c.errSeq = d.errSeq ∧ c.errLen = d.errLen ∧ c.t = d.t ∧
  c.tail = d.tail ∧
  (c.busy = true → c.v = d.v ∧ c.w = d.w) ∧
  (∀ k : Fin 64, k < c.bcnt → c.buf[k] = d.buf[k])

/-- The same for whole states: the host, what it has read, and the schedule are equal. -/
def Agree (s t : State) : Prop :=
  CoreAgree s.core t.core ∧ s.host = t.host ∧ s.rdata = t.rdata ∧ s.sched = t.sched

end Sys2Proof.Machine
end

