-- ==== Sys2Proof/Certificates/Slice0/Obligations.lean ====
section
/-! DEFINITION. The statements for the provers. Each docstring names the rule of spec/ it formalises. -/

open Sys2Proof Sys2Proof.Machine

/-! ### Encoding -/

/-- Words written out from the tables of R94 and R95 decode to their rows, and words of no row to none (a sanity check).
That a descriptor stands in one byte, with DATA 0 where nothing stands above it, is the model's choice (log 11). -/
def Obligations.TableWordsDecodeToTheirRows : Prop :=
  decodeTableWord 32 0x00000000 = some .nop ∧ decodeTableWord 32 0x00000001 = some .init ∧
  decodeTableWord 32 0x00000302 = some .push3 ∧ decodeTableWord 32 0x00000003 = some .finish ∧
  decodeTableWord 8 0x08 = some .rdStatus ∧ decodeTableWord 8 0x2c = some (.rdDigest 3) ∧
  decodeTableWord 8 0x44 = some (.wrDin 0) ∧ decodeTableWord 8 0x7c = some (.wrDigest 7 0) ∧
  decodeTableWord 32 0x00000502 = none ∧ decodeTableWord 8 0x09 = none

/-- Decoding an encoded instruction gives it back, with every operand (R94, R95). -/
def Obligations.DecodeOfEncodeIsTheInstruction : Prop :=
  ∀ i : Instr, decode (encode i) = .ok i

/-- Encoding a decoded input gives it back; a read has no DATA (R91, R98). -/
def Obligations.EncodeOfDecodeIsTheInput : Prop :=
  ∀ x i, decode x = .ok i →
    encode i =
      match x with
      | .command v => .command v
      | .bus desc data => .bus desc (if desc.getLsbD 6 then data else 0)

/-- R94: exactly seven of the 2^32 command words are legal, each with the meaning of its row. -/
def Obligations.SevenCommandWordsAreLegal : Prop :=
  (∀ v : Word, decodeCommand v ≠ .illegal ↔
    v ∈ [0x00000000#32, 0x00000001#32, 0x00000102#32, 0x00000202#32, 0x00000302#32, 0x00000402#32, 0x00000003#32]) ∧
  decodeCommand 0x00000000 = .nop ∧ decodeCommand 0x00000001 = .init ∧ decodeCommand 0x00000102 = .push 1 ∧
  decodeCommand 0x00000202 = .push 2 ∧ decodeCommand 0x00000302 = .push 3 ∧ decodeCommand 0x00000402 = .push 4 ∧
  decodeCommand 0x00000003 = .finish

/-- R96, its three classes: a reserved bit set, a reserved operation, or a wrong byte count. -/
def Obligations.IllegalWordsAreTheThreeClasses : Prop :=
  ∀ v : Word, decodeCommand v = .illegal ↔
    (v.extractLsb' 4 4 ≠ 0 ∨ v.extractLsb' 11 21 ≠ 0) ∨
    4 ≤ (v.extractLsb' 0 4).toNat ∨
    ((v.extractLsb' 0 4).toNat ∈ [0, 1, 3] ∧ (v.extractLsb' 8 3).toNat ≠ 0) ∨
    ((v.extractLsb' 0 4).toNat = 2 ∧ ¬(1 ≤ (v.extractLsb' 8 3).toNat ∧ (v.extractLsb' 8 3).toNat ≤ 4))

/-- R61: the access at `CORE_BASE + 4k` is that of register `k`, whatever CORE_BASE is. -/
def Obligations.AddressSelectsTheRegister : Prop :=
  ∀ (k : Nat) (v : Word), k < 16 →
    (∀ i, ([.rdCtrl, .rdDin, .rdStatus, .rdLenLo, .rdLenHi, .rdRsv5, .rdRsv6, .rdRsv7, .rdDigest 0, .rdDigest 1,
        .rdDigest 2, .rdDigest 3, .rdDigest 4, .rdDigest 5, .rdDigest 6, .rdDigest 7] : List Instr)[k]? = some i →
      decodeAccess (.memRead (Config.coreBase + 4 * k) 4) = .ok i) ∧
    (∀ i, ([.wrCtrl v, .wrDin v, .wrStatus v, .wrLenLo v, .wrLenHi v, .wrRsv5 v, .wrRsv6 v, .wrRsv7 v, .wrDigest 0 v,
        .wrDigest 1 v, .wrDigest 2 v, .wrDigest 3 v, .wrDigest 4 v, .wrDigest 5 v, .wrDigest 6 v,
        .wrDigest 7 v] : List Instr)[k]? = some i →
      decodeAccess (.memWrite (Config.coreBase + 4 * k) 4 v) = .ok i)

/-! ### The step -/

/-- In the host's turn, an access that decodes to `i` is `exec i` with the host one position further and the turn taken; a
read's word is then in the scratch register the operation names, every other register and all else as `exec i` left it
(R101). The turns are log 1, the positions log 2, and `rdata`, where the word read stands, log 4. -/
def Obligations.StepPerformsTheDecodedAccess : Prop :=
  ∀ (s : State) (i : Instr), nextTurn s = .host →
    (∀ off bytes v, currentOp s = .wr off bytes v → decodeAccess ⟨true, off, bytes, v⟩ = .ok i →
      step s = exec i { s with host := { s.host with pc := s.host.pc + 1 }, sched := s.sched.rest }) ∧
    (∀ off bytes k, currentOp s = .rd off bytes k → decodeAccess ⟨false, off, bytes, 0⟩ = .ok i →
      ∃ u t, exec i { s with host := { s.host with pc := s.host.pc + 1 }, sched := s.sched.rest } = .next u ∧
        step s = .next t ∧ Delivered k u t)

/-- In the host's turn, a CTRL write of a legal command word is `exec` of that command's row (R231), with the host one
position further and the turn taken (log 1, log 2). -/
def Obligations.StepPerformsTheWrittenCommand : Prop :=
  ∀ (s : State) (v : Word) (i : Instr), nextTurn s = .host → currentOp s = .wr 0x00 4 v →
    (decodeCommand v).toInstr = some i →
    step s = exec i { s with host := { s.host with pc := s.host.pc + 1 }, sched := s.sched.rest }

/-- R66: an access of another width or at an offset not a multiple of 4 is refused, and so is one outside the window
(R62). The names of the refusals, which one comes first, and that an access is in the window when its first byte is, are
the model's choice (log 6). -/
def Obligations.StepRefusesAnAccessOutsideTheInterface : Prop :=
  ∀ (s : State) (a : HostAccess), nextTurn s = .host →
    ((a.write = true ∧ currentOp s = .wr a.off a.bytes a.data) ∨
      (a.write = false ∧ a.data = 0 ∧ ∃ k, currentOp s = .rd a.off a.bytes k)) →
    (a.inWindow = false → step s = .refused .outsideWindow) ∧
    (a.inWindow = true → a.bytes ≠ 4 → step s = .refused .notWordAccess) ∧
    (a.inWindow = true → a.bytes = 4 → a.off % 4 ≠ 0 → step s = .refused .misalignedAccess)

/-- A word placed by `withFetchWord` is what the next step runs, in every state: a read with its word delivered to `r0`, and
any other instruction as `exec` has it. All of this is the model's own convention: the placing is log 8, the layout, with
DATA in the 32 bits above a descriptor's byte, and `r0` are log 11. -/
def Obligations.PlacedWordIsTheNextInstruction : Prop :=
  ∀ (s : State) (nbits w : Nat) (i : Instr), (nbits = 8 ∨ nbits = 32 ∨ nbits = 40) → w < 2 ^ nbits →
    decodeTableWord nbits w = some i →
    ∃ u : State, u.core = s.core ∧ u.rdata = s.rdata ∧ u.sched = s.sched ∧ u.host.regs = s.host.regs ∧
      u.host.pc = s.host.pc + 1 ∧
      (∀ n, n ≠ s.host.pc → u.host.prog.getD n .halt = s.host.prog.getD n .halt) ∧
      (i ∈ readRows → ∃ v t, exec i u = .next v ∧ step (s.withFetchWord nbits w) = .next t ∧ Delivered 0 v t) ∧
      (i ∉ readRows → step (s.withFetchWord nbits w) = exec i u)

/-- The host's branches and HALT (R101): the bit decides, and nothing but the position changes. That a label is a position,
and that the end of the program acts as HALT, is the model's choice (log 2). -/
def Obligations.HostBranchesOnABit : Prop :=
  ∀ s : State, nextTurn s = .host →
    (∀ k bit label, currentOp s = .bbs k bit label →
      step s = .next { takeTurn s with host := { s.host with
        pc := if (s.host.regs[k]).getLsbD bit.val then label else s.host.pc + 1 } }) ∧
    (∀ k bit label, currentOp s = .bbc k bit label →
      step s = .next { takeTurn s with host := { s.host with
        pc := if (s.host.regs[k]).getLsbD bit.val then s.host.pc + 1 else label } }) ∧
    (currentOp s = .halt → step s = .next (takeTurn s))

/-- In the sequencer's turn (whose turn it is: log 1) the machine makes the sequencer's step, and with `BUSY = 0` there is
none (R240). -/
def Obligations.StepPerformsTheSequencerStep : Prop :=
  ∀ s : State, nextTurn s = .core →
    step s = .next { takeTurn s with core := sequencerStep s.core } ∧
    (s.core.busy = false → sequencerStep s.core = s.core)

/-! ### Reset and INIT -/

/-- R290: the reset values the spec gives. V, W and BUF are unspecified there and have no clause. -/
def Obligations.ResetLeavesTheListedValues : Prop :=
  State.reset.core.h = ⟨0x6a09e667, 0xbb67ae85, 0x3c6ef372, 0xa54ff53a, 0x510e527f, 0x9b05688c, 0x1f83d9ab, 0x5be0cd19⟩ ∧
  State.reset.core.bcnt = 0 ∧ State.reset.core.din = 0 ∧ State.reset.core.len = 0 ∧ State.reset.core.busy = false ∧
  State.reset.core.done = false ∧ State.reset.core.errCmd = false ∧ State.reset.core.errBusy = false ∧
  State.reset.core.errSeq = false ∧ State.reset.core.errLen = false ∧ State.reset.core.t = 0 ∧
  State.reset.core.tail = .none ∧ statusWord State.reset.core = 0

/-- R291 and R292: reset may come at any time, and leaves what INIT leaves from any state, but `DIN = 0`; V, W and BUF
have no clause. The host is not CORE's, and keeps its state (log 3). -/
def Obligations.ResetAgreesWithInit : Prop :=
  ∀ s u : State, nextTurn s = .reset →
    ∃ t v, step s = .next t ∧ exec .init u = .next v ∧
      t.core.h = v.core.h ∧ t.core.bcnt = v.core.bcnt ∧ t.core.len = v.core.len ∧ t.core.busy = v.core.busy ∧
      t.core.done = v.core.done ∧ t.core.errCmd = v.core.errCmd ∧ t.core.errBusy = v.core.errBusy ∧
      t.core.errSeq = v.core.errSeq ∧ t.core.errLen = v.core.errLen ∧ t.core.t = v.core.t ∧
      t.core.tail = v.core.tail ∧ t.core.din = 0 ∧ t.host = s.host ∧ t.rdata = s.rdata ∧ t.sched = (takeTurn s).sched

/-- R232: INIT in every state, and STATUS is 0 after it; DIN, V, W and BUF keep their values. -/
def Obligations.InitBeginsANewMessage : Prop :=
  ∀ (s : State) (i : Instr), i ∈ [Instr.init, .wrCtrl 0x00000001] →
    ∃ t, exec i s = .next t ∧ statusWord t.core = 0 ∧
      t = { s with core := { s.core with
        h := ⟨0x6a09e667, 0xbb67ae85, 0x3c6ef372, 0xa54ff53a, 0x510e527f, 0x9b05688c, 0x1f83d9ab, 0x5be0cd19⟩
        len := 0, bcnt := 0, busy := false, done := false, t := 0, tail := .none
        errCmd := false, errBusy := false, errSeq := false, errLen := false } }

/-- R233: NOP has no effect in any state. -/
def Obligations.NopHasNoEffect : Prop :=
  ∀ (s : State) (i : Instr), i ∈ [Instr.nop, .wrCtrl 0x00000000] → exec i s = .next s

/-! ### Reads and plain writes -/

/-- R222, R223, R225, R227, R228: what each read returns; it changes nothing else (R221). -/
def Obligations.ReadsReturnTheirRegisters : Prop :=
  ∀ s : State,
    exec .rdCtrl s = .next { s with rdata := 0 } ∧
    exec .rdDin s = .next { s with rdata := s.core.din } ∧
    exec .rdLenLo s = .next { s with rdata := s.core.len.extractLsb' 0 32 } ∧
    exec .rdLenHi s = .next { s with rdata := s.core.len.extractLsb' 32 32 } ∧
    exec .rdRsv5 s = .next { s with rdata := 0 } ∧
    exec .rdRsv6 s = .next { s with rdata := 0 } ∧
    exec .rdRsv7 s = .next { s with rdata := 0 }

/-- R226: RD DIGESTi returns `H[i]` in every state. -/
def Obligations.DigestReadsReturnTheHashState : Prop :=
  ∀ s : State,
    exec (.rdDigest 0) s = .next { s with rdata := s.core.h.a } ∧
    exec (.rdDigest 1) s = .next { s with rdata := s.core.h.b } ∧
    exec (.rdDigest 2) s = .next { s with rdata := s.core.h.c } ∧
    exec (.rdDigest 3) s = .next { s with rdata := s.core.h.d } ∧
    exec (.rdDigest 4) s = .next { s with rdata := s.core.h.e } ∧
    exec (.rdDigest 5) s = .next { s with rdata := s.core.h.f } ∧
    exec (.rdDigest 6) s = .next { s with rdata := s.core.h.g } ∧
    exec (.rdDigest 7) s = .next { s with rdata := s.core.h.h }

/-- R224 with R32: the word RD STATUS returns, field by field, its reserved fields 0. -/
def Obligations.StatusReadsFieldByField : Prop :=
  ∀ s : State, ∃ x : Word, exec .rdStatus s = .next { s with rdata := x } ∧
    x.getLsbD 0 = s.core.busy ∧ x.getLsbD 1 = s.core.done ∧ x.getLsbD 2 = s.core.errCmd ∧
    x.getLsbD 3 = s.core.errBusy ∧ x.getLsbD 4 = s.core.errSeq ∧ x.getLsbD 5 = s.core.errLen ∧
    x.extractLsb' 6 2 = 0 ∧ (x.extractLsb' 8 7).toNat = s.core.bcnt.val ∧ x.extractLsb' 15 17 = 0

/-- R230: WR DIN in every state, `BUSY = 1` included. -/
def Obligations.DinWriteStoresTheWord : Prop :=
  ∀ (s : State) (x : Word), exec (.wrDin x) s = .next { s with core := { s.core with din := x } }

/-- R229: the ignored writes. -/
def Obligations.OtherWritesAreIgnored : Prop :=
  ∀ (s : State) (x : Word) (k : Fin 8) (i : Instr),
    i ∈ [Instr.wrStatus x, .wrLenLo x, .wrLenHi x, .wrRsv5 x, .wrRsv6 x, .wrRsv7 x, .wrDigest k x] →
    exec i s = .next s

/-- R220: every access has a next state, whatever the state. -/
def Obligations.EveryAccessIsAccepted : Prop :=
  ∀ (s : State) (i : Instr), ∃ t, exec i s = .next t ∧ t.host = s.host ∧ t.sched = s.sched

/-! ### Errors -/

/-- R260 and R262: a CTRL write of an illegal word sets ERR_CMD and changes nothing else, in every state. -/
def Obligations.IllegalWordSetsErrCmd : Prop :=
  ∀ (s : State) (v : Word), decodeCommand v = .illegal →
    exec (.wrCtrl v) s = .next { s with core := { s.core with errCmd := true } }

/-- R261: a PUSH or FINISH while busy is dropped and sets ERR_BUSY. -/
def Obligations.BusyCommandSetsErrBusy : Prop :=
  ∀ (s : State) (i : Instr), (i ∈ finishRows ∨ ∃ nb, (i, nb) ∈ pushRows) → s.core.busy = true →
    exec i s = .next { s with core := { s.core with errBusy := true } }

/-- R262: while an error flag is 1, a PUSH or FINISH with `BUSY = 0` is dropped and raises no further flag. -/
def Obligations.ErrorDropsLaterCommands : Prop :=
  ∀ (s : State) (i : Instr), (i ∈ finishRows ∨ ∃ nb, (i, nb) ∈ pushRows) → s.core.busy = false →
    errAny s.core = true → exec i s = .next s

/-- R263: a PUSH or FINISH after DONE sets ERR_SEQ and keeps the digest. -/
def Obligations.CommandAfterDoneSetsErrSeq : Prop :=
  ∀ (s : State) (i : Instr), (i ∈ finishRows ∨ ∃ nb, (i, nb) ∈ pushRows) → s.core.busy = false →
    errAny s.core = false → s.core.done = true →
    exec i s = .next { s with core := { s.core with errSeq := true } }

/-- R264: a PUSH that would take LEN past `2^64 - 1` is dropped whole and sets ERR_LEN. -/
def Obligations.TooLongPushSetsErrLen : Prop :=
  ∀ (s : State) (i : Instr) (nb : Nat), (i, nb) ∈ pushRows → s.core.busy = false → errAny s.core = false →
    s.core.done = false → 2 ^ 64 - 1 < s.core.len.toNat + 8 * nb →
    exec i s = .next { s with core := { s.core with errLen := true } }

/-- The causes of R260, R261, R263 and R264 are the only ones: a flag newly set by an access has its cause. -/
def Obligations.EachErrorHasItsCause : Prop :=
  ∀ (s t : State) (i : Instr), exec i s = .next t →
    (s.core.errCmd = false → t.core.errCmd = true → commandOf i = some .illegal) ∧
    (s.core.errBusy = false → t.core.errBusy = true →
      (commandOf i = some .finish ∨ ∃ nb, commandOf i = some (.push nb)) ∧ s.core.busy = true) ∧
    (s.core.errSeq = false → t.core.errSeq = true →
      (commandOf i = some .finish ∨ ∃ nb, commandOf i = some (.push nb)) ∧ s.core.busy = false ∧
        errAny s.core = false ∧ s.core.done = true) ∧
    (s.core.errLen = false → t.core.errLen = true →
      ∃ nb, commandOf i = some (.push nb) ∧ s.core.busy = false ∧ errAny s.core = false ∧ s.core.done = false ∧
        2 ^ 64 - 1 < s.core.len.toNat + 8 * nb)

/-- R270: one command sets at most one flag. -/
def Obligations.OneCommandSetsAtMostOneFlag : Prop :=
  ∀ (s t : State) (i : Instr) (e f : ErrorFlag), exec i s = .next t →
    errorFlag e s.core = false → errorFlag e t.core = true → errorFlag f s.core = false →
    errorFlag f t.core = true → e = f

/-- R28: an error flag is sticky: only INIT and reset clear it. -/
def Obligations.OnlyInitAndResetClearErrors : Prop :=
  ∀ (s t : State) (e : ErrorFlag), step s = .next t → errorFlag e s.core = true → errorFlag e t.core = false →
    nextTurn s = .reset ∨ issues s .init

/-! ### PUSH and FINISH -/

/-- R154 and R234: an accepted PUSH that leaves room appends its bytes of DIN, and nothing else changes. -/
def Obligations.PushAppendsBytesOfDin : Prop :=
  ∀ (s : State) (i : Instr) (nb : Nat), (i, nb) ∈ pushRows → s.core.busy = false → errAny s.core = false →
    s.core.done = false → s.core.len.toNat + 8 * nb ≤ 2 ^ 64 - 1 → s.core.bcnt.val + nb < 64 →
    ∃ t, exec i s = .next t ∧
      t = { s with core := { s.core with
        buf := t.core.buf, bcnt := t.core.bcnt, len := s.core.len + BitVec.ofNat 64 (8 * nb) } } ∧
      t.core.bcnt.val = s.core.bcnt.val + nb ∧
      ∀ k : Fin 64, t.core.buf[k] =
        if s.core.bcnt.val ≤ k.val ∧ k.val < s.core.bcnt.val + nb then
          s.core.din.extractLsb' (24 - 8 * (k.val - s.core.bcnt.val)) 8
        else s.core.buf[k]

/-- R154, the corner case: an accepted PUSH that fills the buffer LOADs the full block at once, sets BUSY, and puts its
remaining bytes at the start of the emptied buffer. -/
def Obligations.PushThatFillsLoadsTheBlock : Prop :=
  ∀ (s : State) (i : Instr) (nb : Nat), (i, nb) ∈ pushRows → s.core.busy = false → errAny s.core = false →
    s.core.done = false → s.core.len.toNat + 8 * nb ≤ 2 ^ 64 - 1 → 64 ≤ s.core.bcnt.val + nb →
    ∃ (t : State) (b : Block), exec i s = .next t ∧
      t = { s with core := { s.core with
        w := blockWords b, v := s.core.h, t := 0, busy := true, tail := .none
        buf := t.core.buf, bcnt := t.core.bcnt, len := s.core.len + BitVec.ofNat 64 (8 * nb) } } ∧
      t.core.bcnt.val = s.core.bcnt.val + nb - 64 ∧
      (∀ k : Fin 64, b[k] =
        if k.val < s.core.bcnt.val then s.core.buf[k]
        else s.core.din.extractLsb' (24 - 8 * (k.val - s.core.bcnt.val)) 8) ∧
      ∀ k : Fin 64, t.core.buf[k] =
        if k.val < s.core.bcnt.val + nb - 64 then s.core.din.extractLsb' (24 - 8 * (k.val + 64 - s.core.bcnt.val)) 8
        else b[k]

/-- R156, R235: an accepted FINISH pads with one block when `BCNT <= 55` and with the first of two otherwise, and LOADs
it; LEN is unchanged. -/
def Obligations.FinishLoadsThePaddedBlock : Prop :=
  ∀ (s : State) (i : Instr), i ∈ finishRows → s.core.busy = false → errAny s.core = false → s.core.done = false →
    ∃ t, exec i s = .next t ∧
      t = { s with core := { s.core with
        w := blockWords t.core.buf, v := s.core.h, t := 0, busy := true, buf := t.core.buf, bcnt := 0
        tail := if s.core.bcnt.val ≤ 55 then .last else .pad2 } } ∧
      ∀ k : Fin 64, t.core.buf[k] =
        if k.val < s.core.bcnt.val then s.core.buf[k]
        else if k.val = s.core.bcnt.val then 0x80
        else if s.core.bcnt.val ≤ 55 ∧ 56 ≤ k.val then s.core.len.extractLsb' (56 - 8 * (k.val - 56)) 8
        else 0

/-- R64: schedule words 0 to 15 of a block are big-endian. -/
def Obligations.BlockWordsAreBigEndian : Prop :=
  ∀ (b : Block) (j : Nat) (h : j < 16),
    ((blockWords b)[j]).toNat =
      (b[4 * j]).toNat * 2 ^ 24 + (b[4 * j + 1]).toNat * 2 ^ 16 + (b[4 * j + 2]).toNat * 2 ^ 8 + (b[4 * j + 3]).toNat

/-- R65 and R157: the length field becomes words 14 and 15, in the block FINISH loads and in the second padding block,
whose other words are 0. -/
def Obligations.LengthFieldIsTheLastTwoWords : Prop :=
  (∀ c : CoreState, c.bcnt.val ≤ 55 →
    (padFinal c).w[14] = c.len.extractLsb' 32 32 ∧ (padFinal c).w[15] = c.len.extractLsb' 0 32) ∧
  ∀ len : Length,
    (∀ (j : Nat) (h : j < 14), (blockWords (padBlock2 len))[j] = 0) ∧
    (blockWords (padBlock2 len))[14] = len.extractLsb' 32 32 ∧ (blockWords (padBlock2 len))[15] = len.extractLsb' 0 32

/-- R67: DIN's lanes in order make DIN again, and where the buffer is word-aligned an accepted `PUSH 4` leaves DIN as the
schedule word at its place in the buffer, and in the window too when the block was LOADed with it. -/
def Obligations.PushedWordIsTheScheduleWord : Prop :=
  (∀ din : Word, be32 (dinByte din 0) (dinByte din 1) (dinByte din 2) (dinByte din 3) = din) ∧
  ∀ (s : State) (i : Instr), (i, 4) ∈ pushRows → s.core.busy = false → errAny s.core = false → s.core.done = false →
    s.core.len.toNat + 32 ≤ 2 ^ 64 - 1 → s.core.bcnt.val % 4 = 0 →
    ∃ t, exec i s = .next t ∧
      (∀ j : Fin 16, j.val = s.core.bcnt.val / 4 → blockWord t.core.buf j = s.core.din) ∧
      (s.core.bcnt.val = 60 → t.core.w[15] = s.core.din)

/-! ### The core steps -/

/-- R195, with the schedule word of R172, the round constant of R132 and the round function of R191, and everything ROUND
leaves. -/
def Obligations.RoundPerformsOneRound : Prop :=
  ∀ c : CoreState, c.busy = true → c.t.val < 64 →
    ∃ (d : CoreState) (wt kt : Word), sequencerStep c = d ∧ d = { c with w := d.w, v := d.v, t := d.t } ∧
      d.t.val = c.t.val + 1 ∧
      wt = (if 16 ≤ c.t.val then
        phi1 (windowWord c.w (c.t.val - 2)) + windowWord c.w (c.t.val - 7) + phi0 (windowWord c.w (c.t.val - 15)) +
          windowWord c.w c.t.val
        else windowWord c.w c.t.val) ∧
      (∀ j : Fin 16, d.w[j] = if j.val = c.t.val % 16 then wt else c.w[j]) ∧
      ([0x428a2f98, 0x71374491, 0xb5c0fbcf, 0xe9b5dba5, 0x3956c25b, 0x59f111f1, 0x923f82a4, 0xab1c5ed5] ++
        [0xd807aa98, 0x12835b01, 0x243185be, 0x550c7dc3, 0x72be5d74, 0x80deb1fe, 0x9bdc06a7, 0xc19bf174] ++
        [0xe49b69c1, 0xefbe4786, 0x0fc19dc6, 0x240ca1cc, 0x2de92c6f, 0x4a7484aa, 0x5cb0a9dc, 0x76f988da] ++
        [0x983e5152, 0xa831c66d, 0xb00327c8, 0xbf597fc7, 0xc6e00bf3, 0xd5a79147, 0x06ca6351, 0x14292967] ++
        [0x27b70a85, 0x2e1b2138, 0x4d2c6dfc, 0x53380d13, 0x650a7354, 0x766a0abb, 0x81c2c92e, 0x92722c85] ++
        [0xa2bfe8a1, 0xa81a664b, 0xc24b8b70, 0xc76c51a3, 0xd192e819, 0xd6990624, 0xf40e3585, 0x106aa070] ++
        [0x19a4c116, 0x1e376c08, 0x2748774c, 0x34b0bcb5, 0x391c0cb3, 0x4ed8aa4a, 0x5b9cca4f, 0x682e6ff3] ++
        [0x748f82ee, 0x78a5636f, 0x84c87814, 0x8cc70208, 0x90befffa, 0xa4506ceb, 0xbef9a3f7, 0xc67178f2] : List Word)[c.t.val]? = some kt ∧
      ∃ t1 t2 : Word,
        t1 = c.v.h + sigma1 c.v.e + choice c.v.e c.v.f c.v.g + kt + wt ∧
        t2 = sigma0 c.v.a + majority c.v.a c.v.b c.v.c ∧
        d.v = ⟨t1 + t2, c.v.a, c.v.b, c.v.c, c.v.d + t1, c.v.e, c.v.f, c.v.g⟩

/-- R196: FOLD for each value of TAIL. -/
def Obligations.FoldFoldsAndContinuesByTail : Prop :=
  ∀ c : CoreState, c.busy = true → c.t.val = 64 →
    ∃ x : Words8,
      x = ⟨c.h.a + c.v.a, c.h.b + c.v.b, c.h.c + c.v.c, c.h.d + c.v.d, c.h.e + c.v.e, c.h.f + c.v.f, c.h.g + c.v.g,
        c.h.h + c.v.h⟩ ∧
      (c.tail = .none → sequencerStep c = { c with h := x, t := 0, busy := false }) ∧
      (c.tail = .last → sequencerStep c = { c with h := x, t := 0, busy := false, done := true, tail := .none }) ∧
      (c.tail = .pad2 → sequencerStep c = { c with
        h := x, t := 0, v := x, w := blockWords (padBlock2 c.len), tail := .last })

/-- R173: the window gives every round the word of the 64-word schedule, and from round 16 on it holds the sixteen words
before that round's. -/
def Obligations.WindowAgreesWithTheSchedule : Prop :=
  ∀ (c : CoreState) (b : Block) (n : Nat), c.busy = true → c.t = 0 → c.w = blockWords b → n < 64 →
    (sequencerStep^[n] c).t.val = n ∧
    windowWord (schedWindow n (sequencerStep^[n] c).w) n = (expand b).getD n 0 ∧
    ∀ k, 16 ≤ n → 1 ≤ k → k ≤ 16 → windowWord (sequencerStep^[n] c).w (n - k) = (expand b).getD (n - k) 0

/-- R199 with R190: the 65 core steps after a LOAD compute `compress` of the block, and `H` keeps its value until the
last of them. -/
def Obligations.SixtyFiveStepsCompressTheBlock : Prop :=
  ∀ (c : CoreState) (b : Block), c.busy = true → c.t = 0 → c.w = blockWords b → c.v = c.h →
    (∀ n, n < 65 → (sequencerStep^[n] c).busy = true ∧ (sequencerStep^[n] c).h = c.h) ∧
    (sequencerStep^[65] c).h = compress c.h b ∧
    ((sequencerStep^[65] c).busy = true ↔ c.tail = .pad2)

/-- R245 and R199: a busy sequencer goes idle after the core steps of the blocks it has left, and not before; if the
block in flight was FINISH's, DONE is then 1. In every infinite run, whatever the order of turns (log 1), the sequencer's turn
comes again and again, and so does a state with `BUSY = 0`. -/
def Obligations.BusySequencerGoesIdle : Prop :=
  (∀ (c : CoreState) (n : Nat), c.busy = true → n = 65 - c.t.val + (if c.tail = .pad2 then 65 else 0) →
    (∀ k, k < n → (sequencerStep^[k] c).busy = true) ∧
    (sequencerStep^[n] c).busy = false ∧ (sequencerStep^[n] c).tail = .none ∧
    ((sequencerStep^[n] c).done = true ↔ c.done = true ∨ c.tail ≠ .none)) ∧
  ∀ run : Nat → State, (∀ i, step (run i) = .next (run (i + 1))) →
    ∀ n, (∃ i, n ≤ i ∧ nextTurn (run i) = .core) ∧ ∃ i, n ≤ i ∧ (run i).core.busy = false

/-- R241: reads, DIN writes, ignored writes, NOP and illegal words commute with core steps, on all of CORE's state. -/
def Obligations.HarmlessAccessCommutesWithACoreStep : Prop :=
  ∀ (s t u : State) (i : Instr),
    (commandOf i = none ∨ commandOf i = some .nop ∨ commandOf i = some .illegal) →
    exec i s = .next t → exec i (coreTurn s) = .next u → (coreTurn t).core = u.core

/-! ### The datapath -/

/-- R120: addition modulo 2^32. -/
def Obligations.AdderIsModular : Prop :=
  ∀ x y : Word, (add32 x y).toNat = (x.toNat + y.toNat) % 2 ^ 32

/-- R121 and R122, bit by bit. -/
def Obligations.RotateAndShiftMoveBits : Prop :=
  ∀ (x : Word) (n i : Nat), i < 32 →
    (rotr x n).getLsbD i = x.getLsbD ((i + n) % 32) ∧
    (shr x n).getLsbD i = (if i + n ≤ 31 then x.getLsbD (i + n) else false)

/-- R124 and R125, bit by bit. -/
def Obligations.ChoiceAndMajorityByBits : Prop :=
  ∀ (x y z : Word) (i : Nat), i < 32 →
    (choice x y z).getLsbD i = (if x.getLsbD i then y.getLsbD i else z.getLsbD i) ∧
    ((majority x y z).getLsbD i = true ↔
      2 ≤ (x.getLsbD i).toNat + (y.getLsbD i).toNat + (z.getLsbD i).toNat)

/-- R126 to R129, bit by bit with the amounts of R130, and R131: the four mixing functions are linear over GF(2). -/
def Obligations.MixingFunctionsAreLinear : Prop :=
  (∀ (x : Word) (i : Nat), i < 32 →
    (sigma0 x).getLsbD i = (x.getLsbD ((i + 2) % 32) ^^ x.getLsbD ((i + 13) % 32) ^^ x.getLsbD ((i + 22) % 32)) ∧
    (sigma1 x).getLsbD i = (x.getLsbD ((i + 6) % 32) ^^ x.getLsbD ((i + 11) % 32) ^^ x.getLsbD ((i + 25) % 32)) ∧
    (phi0 x).getLsbD i = (x.getLsbD ((i + 7) % 32) ^^ x.getLsbD ((i + 18) % 32) ^^
      if i + 3 ≤ 31 then x.getLsbD (i + 3) else false) ∧
    (phi1 x).getLsbD i = (x.getLsbD ((i + 17) % 32) ^^ x.getLsbD ((i + 19) % 32) ^^
      if i + 10 ≤ 31 then x.getLsbD (i + 10) else false)) ∧
  (∀ x y : Word,
    sigma0 (x ^^^ y) = sigma0 x ^^^ sigma0 y ∧ sigma1 (x ^^^ y) = sigma1 x ^^^ sigma1 y ∧
    phi0 (x ^^^ y) = phi0 x ^^^ phi0 y ∧ phi1 (x ^^^ y) = phi1 x ^^^ phi1 y) ∧
  sigma0 0 = 0 ∧ sigma1 0 = 0 ∧ phi0 0 = 0 ∧ phi1 0 = 0

/-! ### The functions on whole messages -/

/-- R151: the properties of `pad`, on the messages of R152. -/
def Obligations.PadHasTheStatedProperties : Prop :=
  ∀ m : List Byte, m.length ≤ 2 ^ 61 - 1 →
    (pad m).length % 64 = 0 ∧ m.length + 9 ≤ (pad m).length ∧ m <+: pad m ∧
    pad m = m ++ [0x80] ++ List.replicate ((119 - m.length % 64) % 64) 0 ++ be64 (BitVec.ofNat 64 (8 * m.length)) ∧
    (8 * (m.length + 1 + (119 - m.length % 64) % 64)) % 512 = 448 ∧
    (pad m).length / 64 = (8 * m.length + 65 + 511) / 512 ∧
    (pad m).length / 64 = m.length / 64 + (if m.length % 64 ≤ 55 then 1 else 2)

/-- R198: a digest renders as 64 characters over `0-9a-f`, the most significant digit of each word first. -/
def Obligations.DigestRendersAsSixtyFourHexDigits : Prop :=
  ∀ x : Words8, (renderDigest x).length = 64 ∧ (∀ ch ∈ renderDigest x, ch ∈ "0123456789abcdef".toList) ∧
    ∀ (i : Fin 8) (k : Nat), k < 8 →
      (renderDigest x)[8 * i.val + k]? = "0123456789abcdef".toList[((x.get i).extractLsb' (28 - 4 * k) 4).toNat]?

/-! ### Whole-machine rules -/

/-- R37 holds after reset. -/
def Obligations.ResetMeetsTheInvariant : Prop := CoreInv State.reset.core

/-- R37: every step keeps the invariant, from every state that meets it. -/
def Obligations.EveryStepKeepsTheInvariant : Prop :=
  ∀ s t : State, CoreInv s.core → step s = .next t → CoreInv t.core

/-- R20: nothing but INIT, reset and FOLD writes H. -/
def Obligations.OnlyInitResetAndFoldWriteH : Prop :=
  ∀ s t : State, step s = .next t → t.core.h ≠ s.core.h →
    nextTurn s = .reset ∨ issues s .init ∨ (nextTurn s = .core ∧ s.core.busy = true ∧ s.core.t.val = 64)

/-- R24 and R25: only the host's DIN write and reset change DIN; only PUSH, INIT and reset change LEN. -/
def Obligations.OnlyTheNamedWritersChangeDinAndLen : Prop :=
  ∀ s t : State, step s = .next t →
    (t.core.din ≠ s.core.din →
      nextTurn s = .reset ∨ (nextTurn s = .host ∧ currentOp s = .wr 0x04 4 t.core.din)) ∧
    (t.core.len ≠ s.core.len → nextTurn s = .reset ∨ issues s .init ∨ ∃ nb, issues s (.push nb))

/-- R26, R27 and R33: BUSY rises only by a PUSH that fills the buffer or a FINISH, and falls only by a FOLD with TAIL NONE or
LAST, INIT and reset; DONE rises only by the FOLD of the last block and falls only by INIT and reset. -/
def Obligations.BusyAndDoneChangeOnlyAsStated : Prop :=
  ∀ s t : State, step s = .next t →
    (s.core.busy = false → t.core.busy = true →
      issues s .finish ∨ ∃ nb, issues s (.push nb) ∧ 64 ≤ s.core.bcnt.val + nb) ∧
    (s.core.busy = true → t.core.busy = false →
      (nextTurn s = .core ∧ s.core.t.val = 64 ∧ (s.core.tail = .none ∨ s.core.tail = .last)) ∨
      nextTurn s = .reset ∨ issues s .init) ∧
    (s.core.done = false → t.core.done = true →
      nextTurn s = .core ∧ s.core.busy = true ∧ s.core.t.val = 64 ∧ s.core.tail = .last) ∧
    (s.core.done = true → t.core.done = false → nextTurn s = .reset ∨ issues s .init)

/-- R246: once DONE is 1, `H` does not change until the next INIT or reset. -/
def Obligations.DigestIsStableAfterDone : Prop :=
  ∀ s t : State, CoreInv s.core → s.core.done = true → step s = .next t → nextTurn s ≠ .reset → ¬ issues s .init →
    t.core.done = true ∧ t.core.h = s.core.h

/-- R292, R21 to R23: what the reset values of V, W and BUF leave unspecified is never observed: two states that differ
only there step alike. -/
def Obligations.UnspecifiedResetValuesAreNotObserved : Prop :=
  ∀ s s' : State, Agree s s' →
    (∀ t, step s = .next t → ∃ t', step s' = .next t' ∧ Agree t t') ∧
    (∀ r, step s = .refused r → step s' = .refused r)

/-- R155, R37 item 5: what CORE holds of an open message. -/
def Obligations.OpenMessageIsHeld : Prop :=
  ∀ (c : CoreState) (m : List Byte) (l : List (Vector Word 16)), MessageRun c m false l →
    c.done = false ∧ c.tail = .none ∧ c.len.toNat = 8 * m.length ∧ c.bcnt.val = m.length % 64 ∧
    l.length = m.length / 64 ∧
    ∀ k : Fin 64, k.val < c.bcnt.val → m[64 * (m.length / 64) + k.val]? = some c.buf[k]

/-- R158: the blocks LOADed for a closed message are the blocks of `pad(m)`, left to right; with `TAIL = PAD2` the last of
them is still to come. -/
def Obligations.LoadedBlocksAreThePaddedMessage : Prop :=
  ∀ (c : CoreState) (m : List Byte) (l : List (Vector Word 16)), MessageRun c m true l →
    l = (List.range ((pad m).length / 64 - (if c.tail = .pad2 then 1 else 0))).map
      fun k => blockWords (blockAt (pad m) k)

/-- R197: when DONE is 1, `H[0..7]` is the digest of the message, and DIGEST0..7 read it; the message is within the
bound of R152. -/
def Obligations.DoneMeansTheDigestOfTheMessage : Prop :=
  ∀ (s : State) (m : List Byte) (l : List (Vector Word 16)), MessageRun s.core m true l → s.core.done = true →
    m.length ≤ 2 ^ 61 - 1 ∧ s.core.h = digest m ∧
    ∀ i : Fin 8, exec (.rdDigest i) s = .next { s with rdata := (digest m).get i }

/-- Every step of the machine, whoever moves, continues a run of messages, so the three statements above reach it: the
message stays as it is, grows by the bytes of a PUSH, or begins anew by INIT or reset; only a FINISH closes it. -/
def Obligations.EveryStepContinuesAMessageRun : Prop :=
  ∀ (s t : State) (m : List Byte) (closed : Bool) (l : List (Vector Word 16)), MessageRun s.core m closed l →
    step s = .next t → ∃ m' closed' l', MessageRun t.core m' closed' l' ∧
      ((m' = m ∧ (closed' = closed ∨ issues s .finish)) ∨
        (closed = false ∧ closed' = false ∧ ∃ nb, issues s (.push nb) ∧ m' = m ++ dinBytes nb s.core.din) ∨
        (m' = [] ∧ closed' = false ∧ (nextTurn s = .reset ∨ issues s .init)))

/-- R283: no step of one instance affects another. -/
def Obligations.InstancesAreIndependent : Prop :=
  ∀ (k j : Nat) (sys sys' : List State), systemStep k sys = .next sys' →
    sys'.length = sys.length ∧ (j ≠ k → sys'[j]? = sys[j]?) ∧
    ∀ s, sys[k]? = some s → ∃ t, step s = .next t ∧ sys'[k]? = some t
end

