-- ==== Sys2Proof/Laws/State.lean ====
section
/-! SUPPORT. One lemma per field per named update of the state, so that no later proof unfolds one. -/

namespace Sys2Proof.Machine

@[simp] theorem load_h (b : Block) (c : CoreState) : (load b c).h = c.h := rfl
@[simp] theorem load_v (b : Block) (c : CoreState) : (load b c).v = c.h := rfl
@[simp] theorem load_w (b : Block) (c : CoreState) : (load b c).w = blockWords b := rfl
@[simp] theorem load_buf (b : Block) (c : CoreState) : (load b c).buf = c.buf := rfl
@[simp] theorem load_bcnt (b : Block) (c : CoreState) : (load b c).bcnt = c.bcnt := rfl
@[simp] theorem load_din (b : Block) (c : CoreState) : (load b c).din = c.din := rfl
@[simp] theorem load_len (b : Block) (c : CoreState) : (load b c).len = c.len := rfl
@[simp] theorem load_busy (b : Block) (c : CoreState) : (load b c).busy = true := rfl
@[simp] theorem load_done (b : Block) (c : CoreState) : (load b c).done = c.done := rfl
@[simp] theorem load_errCmd (b : Block) (c : CoreState) : (load b c).errCmd = c.errCmd := rfl
@[simp] theorem load_errBusy (b : Block) (c : CoreState) : (load b c).errBusy = c.errBusy := rfl
@[simp] theorem load_errSeq (b : Block) (c : CoreState) : (load b c).errSeq = c.errSeq := rfl
@[simp] theorem load_errLen (b : Block) (c : CoreState) : (load b c).errLen = c.errLen := rfl
@[simp] theorem load_t (b : Block) (c : CoreState) : (load b c).t = 0 := rfl
@[simp] theorem load_tail (b : Block) (c : CoreState) : (load b c).tail = c.tail := rfl

@[simp] theorem initCore_h (c : CoreState) : (initCore c).h = iv := rfl
@[simp] theorem initCore_v (c : CoreState) : (initCore c).v = c.v := rfl
@[simp] theorem initCore_w (c : CoreState) : (initCore c).w = c.w := rfl
@[simp] theorem initCore_buf (c : CoreState) : (initCore c).buf = c.buf := rfl
@[simp] theorem initCore_bcnt (c : CoreState) : (initCore c).bcnt = 0 := rfl
@[simp] theorem initCore_din (c : CoreState) : (initCore c).din = c.din := rfl
@[simp] theorem initCore_len (c : CoreState) : (initCore c).len = 0 := rfl
@[simp] theorem initCore_busy (c : CoreState) : (initCore c).busy = false := rfl
@[simp] theorem initCore_done (c : CoreState) : (initCore c).done = false := rfl
@[simp] theorem initCore_errCmd (c : CoreState) : (initCore c).errCmd = false := rfl
@[simp] theorem initCore_errBusy (c : CoreState) : (initCore c).errBusy = false := rfl
@[simp] theorem initCore_errSeq (c : CoreState) : (initCore c).errSeq = false := rfl
@[simp] theorem initCore_errLen (c : CoreState) : (initCore c).errLen = false := rfl
@[simp] theorem initCore_t (c : CoreState) : (initCore c).t = 0 := rfl
@[simp] theorem initCore_tail (c : CoreState) : (initCore c).tail = .none := rfl

@[simp] theorem writeDin_h (x : Word) (c : CoreState) : (writeDin x c).h = c.h := rfl
@[simp] theorem writeDin_v (x : Word) (c : CoreState) : (writeDin x c).v = c.v := rfl
@[simp] theorem writeDin_w (x : Word) (c : CoreState) : (writeDin x c).w = c.w := rfl
@[simp] theorem writeDin_buf (x : Word) (c : CoreState) : (writeDin x c).buf = c.buf := rfl
@[simp] theorem writeDin_bcnt (x : Word) (c : CoreState) : (writeDin x c).bcnt = c.bcnt := rfl
@[simp] theorem writeDin_din (x : Word) (c : CoreState) : (writeDin x c).din = x := rfl
@[simp] theorem writeDin_len (x : Word) (c : CoreState) : (writeDin x c).len = c.len := rfl
@[simp] theorem writeDin_busy (x : Word) (c : CoreState) : (writeDin x c).busy = c.busy := rfl
@[simp] theorem writeDin_done (x : Word) (c : CoreState) : (writeDin x c).done = c.done := rfl
@[simp] theorem writeDin_errCmd (x : Word) (c : CoreState) : (writeDin x c).errCmd = c.errCmd := rfl
@[simp] theorem writeDin_errBusy (x : Word) (c : CoreState) : (writeDin x c).errBusy = c.errBusy := rfl
@[simp] theorem writeDin_errSeq (x : Word) (c : CoreState) : (writeDin x c).errSeq = c.errSeq := rfl
@[simp] theorem writeDin_errLen (x : Word) (c : CoreState) : (writeDin x c).errLen = c.errLen := rfl
@[simp] theorem writeDin_t (x : Word) (c : CoreState) : (writeDin x c).t = c.t := rfl
@[simp] theorem writeDin_tail (x : Word) (c : CoreState) : (writeDin x c).tail = c.tail := rfl

@[simp] theorem roundStep_h (c : CoreState) (h : c.t.val < 64) : (roundStep c h).h = c.h := rfl
@[simp] theorem roundStep_v (c : CoreState) (h : c.t.val < 64) : (roundStep c h).v = roundFn c.v (kRom c.t.val) (windowWord (schedWindow c.t.val c.w) c.t.val) := rfl
@[simp] theorem roundStep_w (c : CoreState) (h : c.t.val < 64) : (roundStep c h).w = schedWindow c.t.val c.w := rfl
@[simp] theorem roundStep_buf (c : CoreState) (h : c.t.val < 64) : (roundStep c h).buf = c.buf := rfl
@[simp] theorem roundStep_bcnt (c : CoreState) (h : c.t.val < 64) : (roundStep c h).bcnt = c.bcnt := rfl
@[simp] theorem roundStep_din (c : CoreState) (h : c.t.val < 64) : (roundStep c h).din = c.din := rfl
@[simp] theorem roundStep_len (c : CoreState) (h : c.t.val < 64) : (roundStep c h).len = c.len := rfl
@[simp] theorem roundStep_busy (c : CoreState) (h : c.t.val < 64) : (roundStep c h).busy = c.busy := rfl
@[simp] theorem roundStep_done (c : CoreState) (h : c.t.val < 64) : (roundStep c h).done = c.done := rfl
@[simp] theorem roundStep_errCmd (c : CoreState) (h : c.t.val < 64) : (roundStep c h).errCmd = c.errCmd := rfl
@[simp] theorem roundStep_errBusy (c : CoreState) (h : c.t.val < 64) : (roundStep c h).errBusy = c.errBusy := rfl
@[simp] theorem roundStep_errSeq (c : CoreState) (h : c.t.val < 64) : (roundStep c h).errSeq = c.errSeq := rfl
@[simp] theorem roundStep_errLen (c : CoreState) (h : c.t.val < 64) : (roundStep c h).errLen = c.errLen := rfl
@[simp] theorem roundStep_t (c : CoreState) (h : c.t.val < 64) : (roundStep c h).t = ⟨c.t.val + 1, Nat.succ_lt_succ h⟩ := rfl
@[simp] theorem roundStep_tail (c : CoreState) (h : c.t.val < 64) : (roundStep c h).tail = c.tail := rfl

@[simp] theorem raiseError_h (e : ErrorFlag) (c : CoreState) : (raiseError e c).h = c.h := by cases e <;> rfl
@[simp] theorem raiseError_v (e : ErrorFlag) (c : CoreState) : (raiseError e c).v = c.v := by cases e <;> rfl
@[simp] theorem raiseError_w (e : ErrorFlag) (c : CoreState) : (raiseError e c).w = c.w := by cases e <;> rfl
@[simp] theorem raiseError_buf (e : ErrorFlag) (c : CoreState) : (raiseError e c).buf = c.buf := by cases e <;> rfl
@[simp] theorem raiseError_bcnt (e : ErrorFlag) (c : CoreState) : (raiseError e c).bcnt = c.bcnt := by cases e <;> rfl
@[simp] theorem raiseError_din (e : ErrorFlag) (c : CoreState) : (raiseError e c).din = c.din := by cases e <;> rfl
@[simp] theorem raiseError_len (e : ErrorFlag) (c : CoreState) : (raiseError e c).len = c.len := by cases e <;> rfl
@[simp] theorem raiseError_busy (e : ErrorFlag) (c : CoreState) : (raiseError e c).busy = c.busy := by cases e <;> rfl
@[simp] theorem raiseError_done (e : ErrorFlag) (c : CoreState) : (raiseError e c).done = c.done := by cases e <;> rfl
@[simp] theorem raiseError_t (e : ErrorFlag) (c : CoreState) : (raiseError e c).t = c.t := by cases e <;> rfl
@[simp] theorem raiseError_tail (e : ErrorFlag) (c : CoreState) : (raiseError e c).tail = c.tail := by cases e <;> rfl

@[simp] theorem raiseError_errCmd (e : ErrorFlag) (c : CoreState) : (raiseError e c).errCmd = (decide (e = .cmd) || c.errCmd) := by
  cases e <;> rfl
@[simp] theorem raiseError_errBusy (e : ErrorFlag) (c : CoreState) : (raiseError e c).errBusy = (decide (e = .busy) || c.errBusy) := by
  cases e <;> rfl
@[simp] theorem raiseError_errSeq (e : ErrorFlag) (c : CoreState) : (raiseError e c).errSeq = (decide (e = .seq) || c.errSeq) := by
  cases e <;> rfl
@[simp] theorem raiseError_errLen (e : ErrorFlag) (c : CoreState) : (raiseError e c).errLen = (decide (e = .len) || c.errLen) := by
  cases e <;> rfl

@[simp] theorem padFinal_h (c : CoreState) : (padFinal c).h = c.h := rfl
@[simp] theorem padFinal_v (c : CoreState) : (padFinal c).v = c.h := rfl
@[simp] theorem padFinal_w (c : CoreState) : (padFinal c).w = blockWords (Vector.ofFn (paddedByte c)) := rfl
@[simp] theorem padFinal_buf (c : CoreState) : (padFinal c).buf = Vector.ofFn (paddedByte c) := rfl
@[simp] theorem padFinal_bcnt (c : CoreState) : (padFinal c).bcnt = 0 := rfl
@[simp] theorem padFinal_din (c : CoreState) : (padFinal c).din = c.din := rfl
@[simp] theorem padFinal_len (c : CoreState) : (padFinal c).len = c.len := rfl
@[simp] theorem padFinal_busy (c : CoreState) : (padFinal c).busy = true := rfl
@[simp] theorem padFinal_done (c : CoreState) : (padFinal c).done = c.done := rfl
@[simp] theorem padFinal_errCmd (c : CoreState) : (padFinal c).errCmd = c.errCmd := rfl
@[simp] theorem padFinal_errBusy (c : CoreState) : (padFinal c).errBusy = c.errBusy := rfl
@[simp] theorem padFinal_errSeq (c : CoreState) : (padFinal c).errSeq = c.errSeq := rfl
@[simp] theorem padFinal_errLen (c : CoreState) : (padFinal c).errLen = c.errLen := rfl
@[simp] theorem padFinal_t (c : CoreState) : (padFinal c).t = 0 := rfl
@[simp] theorem padFinal_tail (c : CoreState) : (padFinal c).tail = if c.bcnt.val ≤ 55 then .last else .pad2 := rfl

@[simp] theorem takeTurn_core (s : State) : (takeTurn s).core = s.core := rfl
@[simp] theorem takeTurn_host (s : State) : (takeTurn s).host = s.host := rfl
@[simp] theorem takeTurn_rdata (s : State) : (takeTurn s).rdata = s.rdata := rfl
@[simp] theorem takeTurn_sched (s : State) : (takeTurn s).sched = s.sched.rest := rfl

@[simp] theorem Schedule.first_cons (turn : Turn) (l : List Turn) (o b : Nat) : Schedule.first ⟨turn :: l, o, b⟩ = turn := rfl
@[simp] theorem Schedule.rest_cons (turn : Turn) (l : List Turn) (o b : Nat) : Schedule.rest ⟨turn :: l, o, b⟩ = ⟨l, o, b⟩ := rfl
@[simp] theorem Schedule.rest_order (q : Schedule) : q.rest.order = q.order := by
  obtain ⟨_ | _, _, _⟩ := q <;> rfl

@[simp] theorem hostGoto_core (n : Nat) (s : State) : (hostGoto n s).core = s.core := rfl
@[simp] theorem hostGoto_host (n : Nat) (s : State) : (hostGoto n s).host = { s.host with pc := n } := rfl
@[simp] theorem hostGoto_rdata (n : Nat) (s : State) : (hostGoto n s).rdata = s.rdata := rfl
@[simp] theorem hostGoto_sched (n : Nat) (s : State) : (hostGoto n s).sched = s.sched := rfl

@[simp] theorem hostAdvance_core (s : State) : (hostAdvance s).core = s.core := rfl
@[simp] theorem hostAdvance_host (s : State) : (hostAdvance s).host = { s.host with pc := s.host.pc + 1 } := rfl
@[simp] theorem hostAdvance_rdata (s : State) : (hostAdvance s).rdata = s.rdata := rfl
@[simp] theorem hostAdvance_sched (s : State) : (hostAdvance s).sched = s.sched := rfl

@[simp] theorem deliver_core (k : Fin 16) (s : State) : (deliver k s).core = s.core := rfl
@[simp] theorem deliver_host (k : Fin 16) (s : State) : (deliver k s).host = { s.host with regs := s.host.regs.set k.val s.rdata } := rfl
@[simp] theorem deliver_rdata (k : Fin 16) (s : State) : (deliver k s).rdata = s.rdata := rfl
@[simp] theorem deliver_sched (k : Fin 16) (s : State) : (deliver k s).sched = s.sched := rfl

@[simp] theorem coreTurn_core (s : State) : (coreTurn s).core = sequencerStep s.core := rfl
@[simp] theorem coreTurn_host (s : State) : (coreTurn s).host = s.host := rfl
@[simp] theorem coreTurn_rdata (s : State) : (coreTurn s).rdata = s.rdata := rfl
@[simp] theorem coreTurn_sched (s : State) : (coreTurn s).sched = s.sched := rfl

@[simp] theorem platformReset_core (s : State) : (platformReset s).core = CoreState.reset := rfl
@[simp] theorem platformReset_host (s : State) : (platformReset s).host = s.host := rfl
@[simp] theorem platformReset_rdata (s : State) : (platformReset s).rdata = s.rdata := rfl
@[simp] theorem platformReset_sched (s : State) : (platformReset s).sched = s.sched := rfl

@[simp] theorem hostBranch_core (taken : Bool) (n : Nat) (s : State) : (hostBranch taken n s).core = s.core := by
  cases taken <;> rfl
@[simp] theorem hostBranch_rdata (taken : Bool) (n : Nat) (s : State) : (hostBranch taken n s).rdata = s.rdata := by
  cases taken <;> rfl
@[simp] theorem hostBranch_sched (taken : Bool) (n : Nat) (s : State) : (hostBranch taken n s).sched = s.sched := by
  cases taken <;> rfl

end Sys2Proof.Machine
end

