-- ==== Sys2Proof/Laws/Ops.lean ====
section
/-! SUPPORT. One lemma for each shared operation, saying once everything it can do. Proofs cite these and do not unfold the
operations. -/

namespace Sys2Proof.Machine

theorem ofFn_getElem_fin {α : Type} {n : Nat} (f : Fin n → α) (k : Fin n) : (Vector.ofFn f)[k] = f k := by
  simp

/-- R231 and R270: exactly one outcome of the checks. -/
theorem checkedCommand_cases (fits : Bool) (act : CoreState → CoreState) (c : CoreState) :
    (c.busy = true ∧ checkedCommand fits act c = raiseError .busy c) ∨
    (c.busy = false ∧ errAny c = true ∧ checkedCommand fits act c = c) ∨
    (c.busy = false ∧ errAny c = false ∧ c.done = true ∧ checkedCommand fits act c = raiseError .seq c) ∨
    (c.busy = false ∧ errAny c = false ∧ c.done = false ∧ fits = true ∧ checkedCommand fits act c = act c) ∨
    (c.busy = false ∧ errAny c = false ∧ c.done = false ∧ fits = false ∧
      checkedCommand fits act c = raiseError .len c) := by
  unfold checkedCommand
  cases c.busy <;> cases errAny c <;> cases c.done <;> cases fits <;> simp

/-- R240: no step while `BUSY = 0`. -/
theorem sequencerStep_idle {c : CoreState} (hb : c.busy = false) : sequencerStep c = c := by
  simp [sequencerStep, hb]

/-- R240: ROUND while `t < 64`. -/
theorem sequencerStep_round {c : CoreState} (hb : c.busy = true) (ht : c.t.val < 64) :
    sequencerStep c = roundStep c ht := by
  simp [sequencerStep, hb, ht]

/-- R240: FOLD at `t = 64`. -/
theorem sequencerStep_fold {c : CoreState} (hb : c.busy = true) (ht : c.t.val = 64) :
    sequencerStep c = foldStep c := by
  simp [sequencerStep, hb, ht]

/-- R240: no step, a ROUND, or a FOLD. -/
theorem sequencerStep_cases (c : CoreState) :
    (c.busy = false ∧ sequencerStep c = c) ∨
    (c.busy = true ∧ ∃ h : c.t.val < 64, sequencerStep c = roundStep c h) ∨
    (c.busy = true ∧ c.t.val = 64 ∧ sequencerStep c = foldStep c) := by
  rcases hb : c.busy with _ | _
  · exact .inl ⟨rfl, sequencerStep_idle hb⟩
  · rcases Nat.lt_or_ge c.t.val 64 with h | h
    · exact .inr (.inl ⟨rfl, h, sequencerStep_round hb h⟩)
    · have ht : c.t.val = 64 := by omega
      exact .inr (.inr ⟨rfl, ht, sequencerStep_fold hb ht⟩)

/-- R196: what FOLD does for each value of TAIL. -/
theorem foldStep_cases (c : CoreState) :
    (c.tail = .none ∧ foldStep c = { c with h := c.h.add c.v, t := 0, busy := false }) ∨
    (c.tail = .last ∧
      foldStep c = { c with h := c.h.add c.v, t := 0, busy := false, done := true, tail := .none }) ∨
    (c.tail = .pad2 ∧
      foldStep c = { c with
        h := c.h.add c.v, v := c.h.add c.v, w := blockWords (padBlock2 c.len), t := 0, busy := true, tail := .last }) := by
  unfold foldStep
  rcases h : c.tail with _ | _ | _
  · exact .inl ⟨rfl, by simp⟩
  · exact .inr (.inl ⟨rfl, by simp⟩)
  · exact .inr (.inr ⟨rfl, by simp [load]⟩)

/-- R154: a byte that does not fill the buffer. -/
theorem pushByte_room (x : Byte) (c : CoreState) (h : c.bcnt.val + 1 < 64) :
    pushByte x c = { c with buf := c.buf.set c.bcnt.val x, len := c.len + 8, bcnt := ⟨c.bcnt.val + 1, h⟩ } := by
  simp [pushByte, h]

/-- R154: the byte that fills the buffer LOADs the block. -/
theorem pushByte_fills (x : Byte) (c : CoreState) (h : c.bcnt.val = 63) :
    pushByte x c = { c with
      buf := c.buf.set c.bcnt.val x, len := c.len + 8, bcnt := 0, w := blockWords (c.buf.set c.bcnt.val x),
      v := c.h, t := 0, busy := true, tail := .none } := by
  have h' : ¬ c.bcnt.val + 1 < 64 := by omega
  simp [pushByte, h', load]

/-- R154: the loop of PushBytes, one byte more. -/
theorem pushBytes_succ (nb : Nat) (c : CoreState) :
    pushBytes (nb + 1) c = pushByte (dinByte c.din nb) (pushBytes nb c) := by
  simp [pushBytes, List.range_succ]

theorem pushBytes_zero (c : CoreState) : pushBytes 0 c = c := rfl

/-- R154: PushBytes that leaves room in the buffer. -/
theorem pushBytes_room (nb : Nat) (c : CoreState) (h : c.bcnt.val + nb < 64) :
    ∃ buf : Block,
      pushBytes nb c = { c with
        buf := buf, bcnt := ⟨c.bcnt.val + nb, h⟩, len := c.len + BitVec.ofNat 64 (8 * nb) } ∧
      ∀ k : Fin 64, buf[k] =
        if c.bcnt.val ≤ k.val ∧ k.val < c.bcnt.val + nb then dinByte c.din (k.val - c.bcnt.val) else c.buf[k] := by
  induction nb with
  | zero => exact ⟨c.buf, by simp [pushBytes_zero], fun k => by rw [if_neg (by omega)]⟩
  | succ n ih =>
    obtain ⟨buf, e, hb⟩ := ih (by omega)
    refine ⟨buf.set (c.bcnt.val + n) (dinByte c.din n), ?_, fun k => ?_⟩
    · rw [pushBytes_succ, e, pushByte_room _ _ (by simp only; omega)]
      simp only [CoreState.mk.injEq, true_and, and_true, Fin.mk.injEq, BitVec.add_assoc]
      exact ⟨by omega, by congr 1; apply BitVec.eq_of_toNat_eq; simp; omega⟩
    · show (buf.set _ _)[k.val] = _
      rw [Vector.getElem_set]
      split
      next hk => rw [if_pos (by omega), show k.val - c.bcnt.val = n by omega]
      next hk =>
        rw [show buf[k.val] = buf[k] from rfl, hb k]
        by_cases hc : c.bcnt.val ≤ k.val ∧ k.val < c.bcnt.val + n
        · rw [if_pos hc, if_pos (by omega)]
        · rw [if_neg hc, if_neg (by omega)]

/-- R154: PushBytes that fills the buffer: the full block `b` is LOADed, and the rest starts the next one. -/
theorem pushBytes_fill (nb : Nat) (c : CoreState) (h : 64 ≤ c.bcnt.val + nb) (h4 : nb ≤ 4) :
    ∃ b buf : Block,
      pushBytes nb c = { c with
        w := blockWords b, v := c.h, t := 0, busy := true, tail := .none, buf := buf
        bcnt := ⟨c.bcnt.val + nb - 64, by omega⟩, len := c.len + BitVec.ofNat 64 (8 * nb) } ∧
      (∀ k : Fin 64, b[k] = if k.val < c.bcnt.val then c.buf[k] else dinByte c.din (k.val - c.bcnt.val)) ∧
      ∀ k : Fin 64, buf[k] =
        if k.val < c.bcnt.val + nb - 64 then dinByte c.din (k.val + 64 - c.bcnt.val) else b[k] := by
  induction nb with
  | zero => omega
  | succ n ih =>
    by_cases hn : 64 ≤ c.bcnt.val + n
    · obtain ⟨b, buf, e, hb, hbuf⟩ := ih hn (by omega)
      refine ⟨b, buf.set (c.bcnt.val + n - 64) (dinByte c.din n), ?_, hb, fun k => ?_⟩
      · rw [pushBytes_succ, e, pushByte_room _ _ (by simp only; omega)]
        simp only [CoreState.mk.injEq, true_and, and_true, Fin.mk.injEq, BitVec.add_assoc]
        exact ⟨by omega, by congr 1; apply BitVec.eq_of_toNat_eq; simp; omega⟩
      · show (buf.set _ _)[k.val] = _
        rw [Vector.getElem_set]
        split
        next hk => rw [if_pos (by omega), show k.val + 64 - c.bcnt.val = n by omega]
        next hk =>
          rw [show buf[k.val] = buf[k] from rfl, hbuf k]
          by_cases hc : k.val < c.bcnt.val + n - 64
          · rw [if_pos hc, if_pos (by omega)]
          · rw [if_neg hc, if_neg (by omega)]
    · obtain ⟨buf, e, hb⟩ := pushBytes_room n c (by omega)
      refine ⟨buf.set (c.bcnt.val + n) (dinByte c.din n), buf.set (c.bcnt.val + n) (dinByte c.din n), ?_, fun k => ?_,
        fun k => by rw [if_neg (by omega)]⟩
      · rw [pushBytes_succ, e, pushByte_fills _ _ (by simp only; omega)]
        simp only [CoreState.mk.injEq, true_and, and_true, Fin.ext_iff, BitVec.add_assoc]
        exact ⟨by simp; omega, by congr 1; apply BitVec.eq_of_toNat_eq; simp; omega⟩
      · show (buf.set _ _)[k.val] = _
        rw [Vector.getElem_set]
        have hk64 := k.isLt
        split
        next hk => rw [if_neg (by omega), show k.val - c.bcnt.val = n by omega]
        next hk =>
          rw [show buf[k.val] = buf[k] from rfl, hb k]
          by_cases hc : k.val < c.bcnt.val
          · rw [if_pos hc, if_neg (by omega)]
          · rw [if_neg hc, if_pos (by omega)]

/-- What every access can do: return a word, write DIN, perform a command, or nothing. -/
theorem exec_cases (i : Instr) (s : State) :
    (∃ reg, exec i s = .next { s with rdata := windowRead s.core reg }) ∨
    (∃ x, exec i s = .next { s with core := writeDin x s.core }) ∨
    (∃ cmd, commandOf i = some cmd ∧ exec i s = .next { s with core := performCommand cmd s.core }) ∨
    (commandOf i = none ∧ exec i s = .next s) := by
  cases i
  case nop => exact .inr (.inr (.inl ⟨_, rfl, rfl⟩))
  case init => exact .inr (.inr (.inl ⟨_, rfl, rfl⟩))
  case push1 => exact .inr (.inr (.inl ⟨_, rfl, rfl⟩))
  case push2 => exact .inr (.inr (.inl ⟨_, rfl, rfl⟩))
  case push3 => exact .inr (.inr (.inl ⟨_, rfl, rfl⟩))
  case push4 => exact .inr (.inr (.inl ⟨_, rfl, rfl⟩))
  case finish => exact .inr (.inr (.inl ⟨_, rfl, rfl⟩))
  case rdCtrl => exact .inl ⟨0, rfl⟩
  case rdDin => exact .inl ⟨1, rfl⟩
  case rdStatus => exact .inl ⟨2, rfl⟩
  case rdLenLo => exact .inl ⟨3, rfl⟩
  case rdLenHi => exact .inl ⟨4, rfl⟩
  case rdRsv5 => exact .inl ⟨5, rfl⟩
  case rdRsv6 => exact .inl ⟨6, rfl⟩
  case rdRsv7 => exact .inl ⟨7, rfl⟩
  case rdDigest k => exact .inl ⟨k.natAdd 8, rfl⟩
  case wrCtrl v => exact .inr (.inr (.inl ⟨_, rfl, rfl⟩))
  case wrDin v => exact .inr (.inl ⟨v, rfl⟩)
  all_goals exact .inr (.inr (.inr ⟨rfl, rfl⟩))

/-- A command instruction performs its command. -/
theorem exec_command {i : Instr} {cmd : Command} (h : commandOf i = some cmd) (s : State) :
    exec i s = .next { s with core := performCommand cmd s.core } := by
  cases i <;> simp [commandOf] at h <;> subst h <;> rfl

/-- R231: what a command can do to CORE: nothing, raise an error flag, or its own effect when it is accepted. -/
theorem performCommand_cases (cmd : Command) (c : CoreState) :
    performCommand cmd c = c ∨
    (∃ e, performCommand cmd c = raiseError e c) ∨
    (cmd = .init ∧ performCommand cmd c = initCore c) ∨
    (∃ nb, cmd = .push nb ∧ c.busy = false ∧ errAny c = false ∧ c.done = false ∧ lengthFits nb c = true ∧
      performCommand cmd c = pushBytes nb c) ∨
    (cmd = .finish ∧ c.busy = false ∧ errAny c = false ∧ c.done = false ∧ performCommand cmd c = padFinal c) := by
  cases cmd with
  | nop => exact .inl rfl
  | illegal => exact .inr (.inl ⟨.cmd, rfl⟩)
  | init => exact .inr (.inr (.inl ⟨rfl, rfl⟩))
  | push nb =>
    rcases checkedCommand_cases (lengthFits nb c) (pushBytes nb) c with
      ⟨_, h⟩ | ⟨_, _, h⟩ | ⟨_, _, _, h⟩ | ⟨hb, he, hd, hl, h⟩ | ⟨_, _, _, _, h⟩
    · exact .inr (.inl ⟨_, h⟩)
    · exact .inl h
    · exact .inr (.inl ⟨_, h⟩)
    · exact .inr (.inr (.inr (.inl ⟨nb, rfl, hb, he, hd, hl, h⟩)))
    · exact .inr (.inl ⟨_, h⟩)
  | finish =>
    rcases checkedCommand_cases true padFinal c with
      ⟨_, h⟩ | ⟨_, _, h⟩ | ⟨_, _, _, h⟩ | ⟨hb, he, hd, _, h⟩ | ⟨_, _, _, hl, _⟩
    · exact .inr (.inl ⟨_, h⟩)
    · exact .inl h
    · exact .inr (.inl ⟨_, h⟩)
    · exact .inr (.inr (.inr (.inr ⟨rfl, hb, he, hd, h⟩)))
    · cases hl

/-- R94: a PUSH an instruction issues pushes 1 to 4 bytes. -/
theorem commandOf_push_range {i : Instr} {nb : Nat} (h : commandOf i = some (.push nb)) : 1 ≤ nb ∧ nb ≤ 4 := by
  cases i <;> simp [commandOf] at h <;> first | omega | skip
  rename_i v
  unfold decodeCommand at h
  split at h
  · cases h
  · split at h <;> try cases h
    split at h <;> cases h
    assumption

/-- R154: PushBytes within the bound on the length, whether it fills the buffer or not. -/
theorem pushBytes_effect (nb : Nat) (c : CoreState) (h4 : nb ≤ 4) (hl : lengthFits nb c = true) :
    (pushBytes nb c).len.toNat = c.len.toNat + 8 * nb ∧ (pushBytes nb c).bcnt.val = (c.bcnt.val + nb) % 64 ∧
    (pushBytes nb c).h = c.h ∧ (pushBytes nb c).din = c.din ∧ (pushBytes nb c).done = c.done ∧
    ((pushBytes nb c).tail = c.tail ∨ (pushBytes nb c).tail = .none) ∧
    (pushBytes nb c).busy = (c.busy || decide (64 ≤ c.bcnt.val + nb)) ∧
    ((pushBytes nb c).busy = false → (pushBytes nb c).t = c.t ∧ (pushBytes nb c).tail = c.tail) ∧
    ∀ e, errorFlag e (pushBytes nb c) = errorFlag e c := by
  have hl' : c.len.toNat + 8 * nb ≤ 2 ^ 64 - 1 := of_decide_eq_true hl
  have e : (c.len + BitVec.ofNat 64 (8 * nb)).toNat = c.len.toNat + 8 * nb := by
    rw [BitVec.toNat_add, BitVec.toNat_ofNat]
    omega
  by_cases h : 64 ≤ c.bcnt.val + nb
  · obtain ⟨b, buf, e', _⟩ := pushBytes_fill nb c h h4
    rw [e']
    exact ⟨e, by simp; omega, rfl, rfl, rfl, .inr rfl, by simp [h], by simp, fun f => by cases f <;> rfl⟩
  · obtain ⟨buf, e', _⟩ := pushBytes_room nb c (by omega)
    rw [e']
    exact ⟨e, by simp; omega, rfl, rfl, rfl, .inl rfl, by simp; omega, by simp, fun f => by cases f <;> rfl⟩

/-- What the host finds after `placeOp`: the operation at its position, and every other position as before. -/
theorem placeOp_prog (op : HostOp) (s : State) (n : Nat) :
    (placeOp op s).host.prog.getD n .halt = if n = s.host.pc then op else s.host.prog.getD n .halt := by
  have hlen : (s.host.prog.take s.host.pc ++ List.replicate (s.host.pc - s.host.prog.length) HostOp.halt).length =
      s.host.pc := by
    simp
    omega
  simp only [placeOp]
  rw [List.append_assoc]
  rcases Nat.lt_trichotomy n s.host.pc with h | h | h
  · rw [if_neg (by omega), List.getD_append _ _ _ _ (by omega)]
    by_cases hl : n < s.host.prog.length
    · rw [List.getD_append _ _ _ _ (by simp; omega)]
      simp [List.getD_eq_getElem?_getD, h]
    · rw [List.getD_append_right _ _ _ _ (by simp; omega), List.getD_eq_default _ _ (Nat.not_lt.mp hl)]
      simp [List.getD_eq_getElem?_getD]
  · rw [if_pos h, List.getD_append_right _ _ _ _ (by omega), hlen, h]
    simp
  · rw [if_neg (by omega), List.getD_append_right _ _ _ _ (by omega), hlen,
      List.getD_append_right _ _ _ _ (by simp; omega)]
    simp [List.getD_eq_getElem?_getD]
    congr 2
    omega

/-- What the host's turn can do: an access with what stands around it, or a move in its program. -/
theorem hostTurn_cases {s t : State} (h : hostTurn s = .next t) :
    (∃ off bytes data i, currentOp s = .wr off bytes data ∧ decodeAccess ⟨true, off, bytes, data⟩ = .ok i ∧
      exec i (hostAdvance s) = .next t) ∨
    (∃ off bytes k i u, currentOp s = .rd off bytes k ∧ decodeAccess ⟨false, off, bytes, 0⟩ = .ok i ∧
      exec i (hostAdvance s) = .next u ∧ t = deliver k u) ∨
    (∃ n, t = hostGoto n s) := by
  unfold hostTurn at h
  split at h
  next off bytes data hop =>
    unfold performAccess at h
    split at h
    next i hi => exact .inl ⟨off, bytes, data, i, hop, hi, h⟩
    next => cases h
  next off bytes k hop =>
    unfold performAccess at h
    split at h
    next i hi =>
      rcases hu : exec i (hostAdvance s) with u | r | r
      · rw [hu] at h
        cases h
        exact .inr (.inl ⟨off, bytes, k, i, u, hop, hi, hu, rfl⟩)
      · exact nomatch r
      · rw [hu] at h
        cases h
    next => cases h
  next k bit label hop =>
    cases h
    refine .inr (.inr ?_)
    cases hostBit k bit s <;> exact ⟨_, rfl⟩
  next k bit label hop =>
    cases h
    refine .inr (.inr ?_)
    cases hostBit k bit s <;> exact ⟨_, rfl⟩
  next =>
    cases h
    exact .inr (.inr ⟨s.host.pc, rfl⟩)

/-- R91, R95: what a descriptor that decodes says of the access. -/
theorem decodeDescriptor_ok {wr : Bool} {n : Nat} {v : Word} {i : Instr} (hn : n < 64)
    (h : decodeDescriptor (descriptorOf wr n) v = .ok i) :
    (wr = false → commandOf i = none ∧ ∀ x, i ≠ .wrDin x) ∧ (∀ x, i = .wrDin x → n = 4 ∧ v = x) ∧
    ∀ cmd, commandOf i = some cmd → n = 0 ∧ decodeCommand v = cmd := by
  have fields : ∀ (wr : Bool) (n : Fin 64),
      (descriptorOf wr n.val).extractLsb' 0 2 = BitVec.ofNat 2 (n.val % 4) ∧ (descriptorOf wr n.val).getLsbD 6 = wr ∧
      (descriptorOf wr n.val).extractLsb' 2 4 = BitVec.ofNat 4 (n.val / 4) := by decide +revert
  obtain ⟨f1, f2, f3⟩ := fields wr ⟨n, hn⟩
  simp only at f1 f2 f3
  unfold decodeDescriptor at h
  split at h
  · cases h
  next h0 =>
    rw [f1] at h0
    have h4 : n % 4 = 0 := by
      simp at h0
      have := congrArg BitVec.toNat h0
      simp at this
      omega
    have e4 : (BitVec.ofNat 4 (n / 4)).toNat = n / 4 := by simp; omega
    rw [f2, f3] at h
    cases wr
    · simp [decodeRead, e4] at h
      subst h
      refine ⟨fun _ => ?_, fun x => ?_, fun x => ?_⟩ <;> split <;> simp [commandOf]
    · simp [decodeWrite, e4] at h
      subst h
      refine ⟨by simp, fun x hx => ?_, fun x hx => ?_⟩
      · split at hx <;> simp at hx
        exact ⟨by omega, hx⟩
      · split at hx <;> simp [commandOf] at hx
        exact ⟨by omega, hx⟩

/-- R61, R66: what an access that decodes says of itself: a read issues no command, and a DIN write or a command is a
write to its register. -/
theorem decodeAccess_ok {a : HostAccess} {i : Instr} (h : decodeAccess a = .ok i) :
    (a.write = false → commandOf i = none ∧ ∀ x, i ≠ .wrDin x) ∧
    (∀ x, i = .wrDin x → a.off = 4 ∧ a.bytes = 4 ∧ a.data = x) ∧
    ∀ cmd, commandOf i = some cmd → a.off = 0 ∧ a.bytes = 4 ∧ decodeCommand a.data = cmd := by
  unfold decodeAccess at h
  split at h
  · cases h
  split at h
  · cases h
  next h1 h2 =>
    simp [HostAccess.inWindow, HostAccess.wordWide, Config.busBytes] at h1 h2
    obtain ⟨r, d, c⟩ := decodeDescriptor_ok (by omega) h
    refine ⟨r, fun x hx => ?_, fun cmd hc => ?_⟩
    · have := d x hx
      exact ⟨by omega, of_decide_eq_true h2, this.2⟩
    · have := c cmd hc
      exact ⟨by omega, of_decide_eq_true h2, this.2⟩

/-- R245: what taking a turn does to a schedule: the first of the turns goes, or the first of the next batch, whose last turn
is the sequencer's. -/
theorem Schedule.first_rest (q : Schedule) :
    (q.turns = q.first :: q.rest.turns ∧ q.rest.batch = q.batch) ∨
    (q.turns = [] ∧ q.first :: q.rest.turns = Config.turnBatch q.order q.batch ++ [.core] ∧ q.rest.batch = q.batch + 1) := by
  obtain ⟨_ | ⟨turn, l⟩, o, b⟩ := q
  · refine .inr ⟨rfl, ?_, rfl⟩
    simp only [first, rest, freshTurns]
    cases Config.turnBatch o b <;> rfl
  · exact .inl ⟨rfl, rfl⟩

/-- What a step can do to CORE: nothing beyond one access, one core step, or a reset. -/
theorem step_cases {s t : State} (h : step s = .next t) :
    (nextTurn s = .host ∧ hostTurn (takeTurn s) = .next t) ∨
    (nextTurn s = .core ∧ t = coreTurn (takeTurn s)) ∨
    (nextTurn s = .reset ∧ t = platformReset (takeTurn s)) := by
  unfold step at h
  cases hn : nextTurn s <;> rw [hn] at h
  · exact .inl ⟨rfl, h⟩
  · cases h
    exact .inr (.inl ⟨rfl, rfl⟩)
  · cases h
    exact .inr (.inr ⟨rfl, rfl⟩)

/-- A step changes CORE's state by one instruction, one core step, a reset, or not at all; where it is an instruction that
writes DIN or issues a command, the host's operation says so. -/
theorem step_core {s t : State} (h : step s = .next t) :
    (∃ i u v, nextTurn s = .host ∧ exec i u = .next v ∧ u.core = s.core ∧ v.core = t.core ∧
      (∀ x, i = .wrDin x → currentOp s = .wr 4 4 x) ∧ ∀ cmd, commandOf i = some cmd → issues s cmd) ∨
    (nextTurn s = .core ∧ t.core = sequencerStep s.core) ∨
    (nextTurn s = .reset ∧ t.core = CoreState.reset) ∨
    (nextTurn s = .host ∧ t.core = s.core) := by
  rcases step_cases h with ⟨hn, h⟩ | ⟨hn, rfl⟩ | ⟨hn, rfl⟩
  · rcases hostTurn_cases h with ⟨o, b, d, i, hop, hd, hx⟩ | ⟨o, b, d, i, u, hop, hd, hx, rfl⟩ | ⟨n, rfl⟩
    · have hop' : currentOp s = .wr o b d := hop
      obtain ⟨-, w, c⟩ := decodeAccess_ok hd
      refine .inl ⟨i, _, _, hn, hx, by simp, rfl, fun x hi => ?_, fun cmd hi => ?_⟩
      · obtain ⟨e1, e2, e3⟩ := w x hi
        simp only at e1 e2 e3
        rw [hop', e1, e2, e3]
      · obtain ⟨e1, e2, e3⟩ := c cmd hi
        simp only at e1 e2 e3
        exact ⟨hn, d, by rw [hop', e1, e2], e3⟩
    · obtain ⟨hc, hd'⟩ := (decodeAccess_ok hd).1 rfl
      exact .inl ⟨i, _, _, hn, hx, by simp, by simp, fun x hi => absurd hi (hd' x),
        fun cmd hi => by rw [hc] at hi; cases hi⟩
    · exact .inr (.inr (.inr ⟨hn, by simp⟩))
  · exact .inr (.inl ⟨hn, by simp⟩)
  · exact .inr (.inr (.inl ⟨hn, by simp⟩))

/-- R101: what a read leaves in the scratch registers. -/
theorem deliver_delivered (k : Fin 16) (s : State) : Delivered k s (deliver k s) := by
  refine ⟨by simp, fun j hj => ?_, rfl, rfl, rfl, rfl, rfl⟩
  have hne : k.val ≠ j.val := fun h => hj (Fin.ext h.symm)
  show (s.host.regs.set k.val s.rdata)[j.val] = s.host.regs[j.val]
  rw [Vector.getElem_set, if_neg hne]

/-- No access touches the schedule. -/
theorem exec_sched {i : Instr} {s t : State} (h : exec i s = .next t) : t.sched = s.sched := by
  rcases exec_cases i s with ⟨_, e⟩ | ⟨_, e⟩ | ⟨_, _, e⟩ | ⟨_, e⟩ <;> rw [h] at e <;> cases e <;> rfl

/-- R241: every step takes one turn of the schedule, and does nothing else to it. -/
theorem step_sched {s t : State} (h : step s = .next t) : t.sched = s.sched.rest := by
  rcases step_cases h with ⟨_, h⟩ | ⟨_, rfl⟩ | ⟨_, rfl⟩
  · rcases hostTurn_cases h with ⟨_, _, _, _, _, _, hx⟩ | ⟨_, _, _, _, _, _, _, hx, rfl⟩ | ⟨_, rfl⟩
    · simp [exec_sched hx]
    · simp [exec_sched hx]
    · simp
  · simp
  · simp

end Sys2Proof.Machine
end

