-- ==== Sys2Proof/Laws/PerInstr.lean ====
section
/-! SUPPORT. What holds of every instruction as syntax, one lemma per constructor. -/

namespace Sys2Proof.Laws.EncodingShape

/-- The instruction addresses a slot of the window, and where it is encoded as a bus descriptor, ALIGN is 00, WR says
whether it carries DATA, and REG is its slot (spec/30_encoding.md R91, R95). -/
def Statement (i : Instr) : Prop :=
  i.wf = true ∧ ∀ desc data, encode i = .bus desc data →
    desc.extractLsb' 0 2 = 0 ∧ desc.getLsbD 6 = i.writeData.isSome ∧ (desc.extractLsb' 2 4).toNat = i.slot

theorem nop : Statement .nop := by
  refine ⟨rfl, fun desc data h => ?_⟩
  cases h

theorem init : Statement .init := by
  refine ⟨rfl, fun desc data h => ?_⟩
  cases h

theorem push1 : Statement .push1 := by
  refine ⟨rfl, fun desc data h => ?_⟩
  cases h

theorem push2 : Statement .push2 := by
  refine ⟨rfl, fun desc data h => ?_⟩
  cases h

theorem push3 : Statement .push3 := by
  refine ⟨rfl, fun desc data h => ?_⟩
  cases h

theorem push4 : Statement .push4 := by
  refine ⟨rfl, fun desc data h => ?_⟩
  cases h

theorem finish : Statement .finish := by
  refine ⟨rfl, fun desc data h => ?_⟩
  cases h

theorem rdCtrl : Statement .rdCtrl := by
  refine ⟨rfl, fun desc data h => ?_⟩
  cases h
  exact ⟨rfl, rfl, rfl⟩

theorem rdDin : Statement .rdDin := by
  refine ⟨rfl, fun desc data h => ?_⟩
  cases h
  exact ⟨rfl, rfl, rfl⟩

theorem rdStatus : Statement .rdStatus := by
  refine ⟨rfl, fun desc data h => ?_⟩
  cases h
  exact ⟨rfl, rfl, rfl⟩

theorem rdLenLo : Statement .rdLenLo := by
  refine ⟨rfl, fun desc data h => ?_⟩
  cases h
  exact ⟨rfl, rfl, rfl⟩

theorem rdLenHi : Statement .rdLenHi := by
  refine ⟨rfl, fun desc data h => ?_⟩
  cases h
  exact ⟨rfl, rfl, rfl⟩

theorem rdRsv5 : Statement .rdRsv5 := by
  refine ⟨rfl, fun desc data h => ?_⟩
  cases h
  exact ⟨rfl, rfl, rfl⟩

theorem rdRsv6 : Statement .rdRsv6 := by
  refine ⟨rfl, fun desc data h => ?_⟩
  cases h
  exact ⟨rfl, rfl, rfl⟩

theorem rdRsv7 : Statement .rdRsv7 := by
  refine ⟨rfl, fun desc data h => ?_⟩
  cases h
  exact ⟨rfl, rfl, rfl⟩

theorem rdDigest (k : Fin 8) : Statement (.rdDigest k) := by
  refine ⟨by revert k; decide, fun desc data h => ?_⟩
  cases h
  revert k
  decide

theorem wrCtrl (v : Word) : Statement (.wrCtrl v) := by
  refine ⟨rfl, fun desc data h => ?_⟩
  cases h
  simp only [Instr.slot, Instr.writeData, Option.isSome_some]
  decide

theorem wrDin (v : Word) : Statement (.wrDin v) := by
  refine ⟨rfl, fun desc data h => ?_⟩
  cases h
  simp only [Instr.slot, Instr.writeData, Option.isSome_some]
  decide

theorem wrStatus (v : Word) : Statement (.wrStatus v) := by
  refine ⟨rfl, fun desc data h => ?_⟩
  cases h
  simp only [Instr.slot, Instr.writeData, Option.isSome_some]
  decide

theorem wrLenLo (v : Word) : Statement (.wrLenLo v) := by
  refine ⟨rfl, fun desc data h => ?_⟩
  cases h
  simp only [Instr.slot, Instr.writeData, Option.isSome_some]
  decide

theorem wrLenHi (v : Word) : Statement (.wrLenHi v) := by
  refine ⟨rfl, fun desc data h => ?_⟩
  cases h
  simp only [Instr.slot, Instr.writeData, Option.isSome_some]
  decide

theorem wrRsv5 (v : Word) : Statement (.wrRsv5 v) := by
  refine ⟨rfl, fun desc data h => ?_⟩
  cases h
  simp only [Instr.slot, Instr.writeData, Option.isSome_some]
  decide

theorem wrRsv6 (v : Word) : Statement (.wrRsv6 v) := by
  refine ⟨rfl, fun desc data h => ?_⟩
  cases h
  simp only [Instr.slot, Instr.writeData, Option.isSome_some]
  decide

theorem wrRsv7 (v : Word) : Statement (.wrRsv7 v) := by
  refine ⟨rfl, fun desc data h => ?_⟩
  cases h
  simp only [Instr.slot, Instr.writeData, Option.isSome_some]
  decide

theorem wrDigest (k : Fin 8) (v : Word) : Statement (.wrDigest k v) := by
  refine ⟨?_, fun desc data h => ?_⟩
  · exact decide_eq_true (show 8 + k.val < 16 by omega)
  · cases h
    simp only [Instr.slot, Instr.writeData, Option.isSome_some]
    revert k
    decide

end Sys2Proof.Laws.EncodingShape
end

