-- ==== Sys2Proof/Laws/Sha256.lean ====
section
/-! SUPPORT. One lemma for each function of Machine/Sha256.lean that recurses: what it answers, in closed form. -/

namespace Sys2Proof

/-- R150, step 3: the zero bytes it appends. -/
theorem padZeros_eq (fuel : Nat) (p : List Byte) (z : Nat) (hz : z ≤ fuel) (hm : (p.length + z) % 64 = 56) (h64 : z < 64) :
    padZeros fuel p = p ++ List.replicate z 0 := by
  induction fuel generalizing p z with
  | zero =>
    obtain rfl : z = 0 := by omega
    simp [padZeros]
  | succ n ih =>
    unfold padZeros
    split
    · obtain rfl : z = 0 := by omega
      simp
    · obtain ⟨k, rfl⟩ : ∃ k, z = k + 1 := ⟨z - 1, by omega⟩
      rw [ih (p ++ [0]) k (by omega) (by simp; omega) (by omega)]
      simp [List.replicate_succ]

/-- R170: the schedule grows by `n` words. -/
theorem extendSchedule_length (n : Nat) (w : List Word) : (extendSchedule n w).length = w.length + n := by
  induction n generalizing w with
  | zero => rfl
  | succ n ih =>
    rw [extendSchedule, ih]
    simp
    omega

/-- R170: words already in the schedule stay. -/
theorem prefix_extendSchedule (n : Nat) (w : List Word) : w <+: extendSchedule n w := by
  induction n generalizing w with
  | zero => exact List.prefix_rfl
  | succ n ih => exact (List.prefix_append _ _).trans (ih _)

/-- R170: extending in two parts. -/
theorem extendSchedule_add (n m : Nat) (w : List Word) :
    extendSchedule (n + m) w = extendSchedule m (extendSchedule n w) := by
  induction n generalizing w with
  | zero => simp [extendSchedule]
  | succ n ih => rw [Nat.succ_add, extendSchedule, extendSchedule, ih]

end Sys2Proof
end

