-- ==== Sys2Proof/Tests/Slice0.lean ====
section
/-! SUPPORT. Tests. Expected values come from spec/95_test_vectors.md and from the tables of spec/30_encoding.md (R92, R94,
R95), never from the model; the witnesses show that each statement's hypotheses can be met. -/

namespace Sys2Proof.Tests

open Sys2Proof.Machine

/-! ### Helpers -/

/-- CORE's state after a next state. -/
def coreOf : Host.Outcome State Fault Refusal → Option CoreState
  | .next s => some s.core
  | _ => none

/-- The word a read returned. -/
def readOf : Host.Outcome State Fault Refusal → Option Word
  | .next s => some s.rdata
  | _ => none

/-- STATUS after a next state. -/
def statusOf : Host.Outcome State Fault Refusal → Option Word
  | .next s => some (statusWord s.core)
  | _ => none

/-- The refusal, if it is one. -/
def refusalIn : Host.Outcome State Fault Refusal → Option Refusal
  | .refused r => some r
  | _ => none

/-- A state around a state of CORE. -/
def around (c : CoreState) : State := { State.reset with core := c }

/-- One turn of `who` to come. -/
def only (who : Turn) : Schedule := ⟨[who], 0, 0⟩

/-- The sequencer is about to move. -/
def coreNext (c : CoreState) : State := { around c with sched := only .core }

/-- The host is about to perform `op`. -/
def hostAt (op : HostOp) (s : State) : State :=
  { s with host := { s.host with prog := [op], pc := 0 }, sched := only .host }

/-- Idle, with the count and the length given (95, sections 3.3 and 7.3). -/
def counted (n : Fin 64) (len : Length) : CoreState := { CoreState.reset with bcnt := n, len := len }

/-- A block in flight, before its round `t`. -/
def running (t : Fin 65) (tail : Tail) : CoreState := { CoreState.reset with busy := true, t := t, tail := tail }

/-- DONE. -/
def doneCore : CoreState := { CoreState.reset with done := true }

/-- "abc". -/
def abc : List Byte := [0x61, 0x62, 0x63]

/-! ### WellFormed: one ill-formed term for each check, and a well-formed one -/

theorem test_wf_halfword_refused : HostAccess.wf ⟨true, 0x04, 2, 0⟩ = false := by decide
theorem test_wf_misaligned_refused : HostAccess.wf ⟨false, 0x06, 4, 0⟩ = false := by decide
theorem test_wf_above_window_refused : HostAccess.wf ⟨false, 0x40, 4, 0⟩ = false := by decide
theorem test_wf_below_window_refused : HostAccess.wf ⟨false, -4, 4, 0⟩ = false := by decide
theorem test_wf_last_slot_accepted : HostAccess.wf ⟨false, 0x3c, 4, 0⟩ = true := by decide
theorem test_wf_branch_past_end_refused : programWf [.bbs 15 0 3, .halt] = false := by decide
theorem test_wf_bad_access_in_program_refused : programWf [.rd 0x08 1 15, .halt] = false := by decide
theorem test_wf_poll_loop_accepted : programWf [.rd 0x08 4 15, .bbs 15 0 0, .halt] = true := by decide
theorem test_wf_every_slot_exists : Instr.wf (.wrDigest 7 0) = true := by decide

/-! ### Decoding: every row's word, bit by bit from R92, R94 and R91, R95 -/

-- OP 3:0, RSV0 7:4, NB 10:8, RSV1 31:11
theorem test_decode_nop : decodeTableWord 32 0b000000000000000000000_000_0000_0000 = some .nop := by decide
theorem test_decode_init : decodeTableWord 32 0b000000000000000000000_000_0000_0001 = some .init := by decide
theorem test_decode_push1 : decodeTableWord 32 0b000000000000000000000_001_0000_0010 = some .push1 := by decide
theorem test_decode_push2 : decodeTableWord 32 0b000000000000000000000_010_0000_0010 = some .push2 := by decide
theorem test_decode_push3 : decodeTableWord 32 0b000000000000000000000_011_0000_0010 = some .push3 := by decide
theorem test_decode_push4 : decodeTableWord 32 0b000000000000000000000_100_0000_0010 = some .push4 := by decide
theorem test_decode_finish : decodeTableWord 32 0b000000000000000000000_000_0000_0011 = some .finish := by decide
-- WR 6, REG 5:2, ALIGN 1:0
theorem test_decode_rdCtrl : decode (.bus 0b0_0000_00 0) = .ok .rdCtrl := by decide
theorem test_decode_rdDin : decode (.bus 0b0_0001_00 0) = .ok .rdDin := by decide
theorem test_decode_rdStatus : decode (.bus 0b0_0010_00 0) = .ok .rdStatus := by decide
theorem test_decode_rdLenLo : decode (.bus 0b0_0011_00 0) = .ok .rdLenLo := by decide
theorem test_decode_rdLenHi : decode (.bus 0b0_0100_00 0) = .ok .rdLenHi := by decide
theorem test_decode_rdRsv5 : decode (.bus 0b0_0101_00 0) = .ok .rdRsv5 := by decide
theorem test_decode_rdRsv6 : decode (.bus 0b0_0110_00 0) = .ok .rdRsv6 := by decide
theorem test_decode_rdRsv7 : decode (.bus 0b0_0111_00 0) = .ok .rdRsv7 := by decide
theorem test_decode_rdDigest : decode (.bus 0b0_1101_00 0) = .ok (.rdDigest 5) := by decide
theorem test_decode_wrCtrl : decode (.bus 0b1_0000_00 0x00000302) = .ok (.wrCtrl 0x00000302) := by decide
theorem test_decode_wrDin : decode (.bus 0b1_0001_00 0x61626364) = .ok (.wrDin 0x61626364) := by decide
theorem test_decode_wrStatus : decode (.bus 0b1_0010_00 0xffffffff) = .ok (.wrStatus 0xffffffff) := by decide
theorem test_decode_wrLenLo : decode (.bus 0b1_0011_00 1) = .ok (.wrLenLo 1) := by decide
theorem test_decode_wrLenHi : decode (.bus 0b1_0100_00 2) = .ok (.wrLenHi 2) := by decide
theorem test_decode_wrRsv5 : decode (.bus 0b1_0101_00 3) = .ok (.wrRsv5 3) := by decide
theorem test_decode_wrRsv6 : decode (.bus 0b1_0110_00 5) = .ok (.wrRsv6 5) := by decide
theorem test_decode_wrRsv7 : decode (.bus 0b1_0111_00 7) = .ok (.wrRsv7 7) := by decide
theorem test_decode_wrDigest : decode (.bus 0b1_1111_00 9) = .ok (.wrDigest 7 9) := by decide

/-- The illegal words of 95, section 7.1. -/
theorem test_illegal_words :
    ([0x00000002, 0x00000502, 0x00000602, 0x00000702, 0x00000101, 0x00000103, 0x00000004, 0x0000000f, 0x00000010,
      0x00000800, 0x80000001, 0xffffffff] : List Word).all (fun v => decide (decodeCommand v = .illegal)) = true := by decide

theorem test_decode_misaligned : decode (.bus 0b0_0010_01 0) = .error (.access .misaligned) := by decide
theorem test_decode_table_misaligned : decodeTableWord 8 0x41 = none := by decide
theorem test_decode_table_bit7 : decodeTableWord 8 0x80 = none := by decide
theorem test_encode_wrDin : encode (.wrDin 0x61626364) = .bus 0x44 0x61626364 := by decide
theorem test_encode_push4 : encode .push4 = .command 0x00000402 := by decide

/-! ### The datapath: 95, section 2 -/

theorem test_mixing_12345678 :
    sigma0 0x12345678 = 0x66146474 ∧ sigma1 0x12345678 = 0x3561abda ∧ phi0 0x12345678 = 0xe7fce6ee ∧
    phi1 0x12345678 = 0xa1f78649 := by decide
theorem test_mixing_one_bit :
    sigma0 0x80000000 = 0x20040200 ∧ sigma1 0x80000000 = 0x02100040 ∧ phi0 0x80000000 = 0x11002000 ∧
    phi1 0x80000000 = 0x00205000 := by decide
theorem test_mixing_iv :
    sigma0 0x510e527f = 0x7ef0e1a9 ∧ sigma1 0x510e527f = 0x3587272b ∧ phi0 0x510e527f = 0x601c02a8 ∧
    phi1 0x510e527f = 0xe3640132 := by decide
theorem test_rotate :
    rotr 0x12345678 7 = 0xf02468ac ∧ rotr 0x12345678 25 = 0x1a2b3c09 ∧ rotr 0x00000001 13 = 0x00080000 := by decide
theorem test_shift : shr 0x80000000 3 = 0x10000000 ∧ shr 0x12345678 3 = 0x02468acf := by decide
theorem test_choice_majority :
    choice 0xff00ff00 0x12345678 0x9abcdef0 = 0x12bc56f0 ∧ majority 0xff00ff00 0x12345678 0x9abcdef0 = 0x9a34de70 := by decide
theorem test_add_wraps : add32 0xffffffff 0x00000001 = 0 ∧ add32 0x6a09e667 0xbb67ae85 = 0x257194ec := by decide
theorem test_k_rows : kRom 0 = 0x428a2f98 ∧ kRom 16 = 0xe49b69c1 ∧ kRom 47 = 0x106aa070 ∧ kRom 63 = 0xc67178f2 := by decide

/-! ### Padding and compression: 95, sections 3 to 5 -/

theorem test_pad_abc :
    pad abc = [0x61, 0x62, 0x63, 0x80] ++ List.replicate 52 0 ++ [0, 0, 0, 0, 0, 0, 0, 0x18] := by decide
theorem test_pad_lengths :
    (pad (List.replicate 55 0)).length = 64 ∧ (pad (List.replicate 56 0)).length = 128 := by
  simp [pad, padZeros_eq 63 _ 0, padZeros_eq 63 _ 63, be64]
/-- 95, section 5.1: the row of round 0. -/
theorem test_round_zero :
    roundFn iv 0x428a2f98 0x61626380 =
      ⟨0x5d6aebcd, 0x6a09e667, 0xbb67ae85, 0x3c6ef372, 0xfa2a4622, 0x510e527f, 0x9b05688c, 0x1f83d9ab⟩ := by decide
/-- 95, section 4.1: `w[16]`, `w[17]` and `w[18]` of the "abc" block. -/
theorem test_schedule_abc :
    ((extendSchedule 3 (blockWords (blockAt (pad abc) 0)).toList).drop 16) = [0x61626380, 0x000f0000, 0x7da86405] := by decide
theorem test_hex : hex8 0xba7816bf = "ba7816bf".toList := by decide

/-! ### The command words: 95, sections 3.3, 6 and 7 -/

theorem test_nop_while_busy : exec .nop (around (running 5 .last)) = .next (around (running 5 .last)) := by rfl

theorem test_init_clears_errors_keeps_din :
    coreOf (exec .init (around { running 9 .pad2 with errSeq := true, len := 0x1c0, din := 7, h := ⟨1, 2, 3, 4, 5, 6, 7, 8⟩ })) =
      some { CoreState.reset with din := 7 } := by decide

theorem test_push1_length_bound :
    (coreOf (exec .push1 (around (counted 62 0xfffffffffffffff0)))).map (fun c => (c.len, statusWord c)) =
      some (0xfffffffffffffff8, 0x00003f00) := by decide

theorem test_push2_length_bound :
    statusOf (exec .push2 (around (counted 62 0xfffffffffffffff0))) = some 0x00003e20 := by decide

theorem test_push3_abc :
    (coreOf (exec .push3 (around { CoreState.reset with din := 0x61626300 }))).map
        (fun c => (c.len, statusWord c, c.buf.toList.take 4)) =
      some (0x18, 0x00000300, [0x61, 0x62, 0x63, 0]) := by decide

theorem test_push4_straddles :
    (coreOf (exec .push4 (around { counted 62 0x1f0 with din := 0x11223344 }))).map
        (fun c => (c.len, statusWord c, c.w[15], c.buf.toList.take 2, c.tail)) =
      some (0x210, 0x00000201, 0x00001122, [0x33, 0x44], .none) := by decide

theorem test_push4_too_long :
    statusOf (exec .push4 (around (counted 62 0xfffffffffffffff0))) = some 0x00003e20 := by decide

theorem test_finish_one_block :
    (coreOf (exec .finish (around (counted 55 0x1b8)))).map (fun c => (statusWord c, c.tail, c.w[13], c.w[15])) =
      some (0x00000001, .last, 0x00000080, 0x000001b8) := by decide

theorem test_finish_two_blocks :
    (coreOf (exec .finish (around (counted 56 0x1c0)))).map (fun c => (statusWord c, c.tail, c.w[14], c.w[15])) =
      some (0x00000001, .pad2, 0x80000000, 0) := by decide

/-! ### Reads and writes: 95, sections 6.1 and 6.2 -/

theorem test_rdCtrl_reads_zero : readOf (exec .rdCtrl (around { doneCore with din := 1 })) = some 0 := by decide
theorem test_rdDin : readOf (exec .rdDin (around { CoreState.reset with din := 0x61626364 })) = some 0x61626364 := by decide
theorem test_rdStatus_done_errSeq : readOf (exec .rdStatus (around { doneCore with errSeq := true })) = some 0x00000012 := by decide
theorem test_rdStatus_running :
    readOf (exec .rdStatus (around { running 64 .none with bcnt := 2, errBusy := true })) = some 0x00000209 := by decide
theorem test_rdLenLo : readOf (exec .rdLenLo (around (counted 63 0xfffffffffffffff8))) = some 0xfffffff8 := by decide
theorem test_rdLenHi : readOf (exec .rdLenHi (around (counted 63 0xfffffffffffffff8))) = some 0xffffffff := by decide
theorem test_rdRsv5 : readOf (exec .rdRsv5 { State.reset with rdata := 9 }) = some 0 := by decide
theorem test_rdRsv6 : readOf (exec .rdRsv6 { State.reset with rdata := 9 }) = some 0 := by decide
theorem test_rdRsv7 : readOf (exec .rdRsv7 { State.reset with rdata := 9 }) = some 0 := by decide
theorem test_rdDigest_after_reset :
    (List.finRange 8).map (fun i => readOf (exec (.rdDigest i) State.reset)) =
      [0x6a09e667, 0xbb67ae85, 0x3c6ef372, 0xa54ff53a, 0x510e527f, 0x9b05688c, 0x1f83d9ab, 0x5be0cd19].map some := by decide

theorem test_wrCtrl_illegal_while_busy : statusOf (exec (.wrCtrl 0x00000502) (around (running 0 .last))) = some 0x00000005 := by
  decide
/-- 95, section 7.2: ERR_BUSY is raised although ERR_CMD is set. -/
theorem test_wrCtrl_push_while_busy :
    statusOf (exec (.wrCtrl 0x00000102) (around { running 0 .last with errCmd := true })) = some 0x0000000d := by decide
theorem test_wrDin_while_busy :
    coreOf (exec (.wrDin 0x61626364) (around (running 1 .none))) = some { running 1 .none with din := 0x61626364 } := by decide
theorem test_wrStatus_ignored : exec (.wrStatus 0xffffffff) (around doneCore) = .next (around doneCore) := by rfl
theorem test_wrLenLo_ignored : exec (.wrLenLo 1) (around doneCore) = .next (around doneCore) := by rfl
theorem test_wrLenHi_ignored : exec (.wrLenHi 1) (around doneCore) = .next (around doneCore) := by rfl
theorem test_wrRsv5_ignored : exec (.wrRsv5 5) (around doneCore) = .next (around doneCore) := by rfl
theorem test_wrRsv6_ignored : exec (.wrRsv6 5) (around doneCore) = .next (around doneCore) := by rfl
theorem test_wrRsv7_ignored : exec (.wrRsv7 5) (around doneCore) = .next (around doneCore) := by rfl
theorem test_wrDigest_ignored : exec (.wrDigest 0 0) (around doneCore) = .next (around doneCore) := by rfl

/-- 95, section 7.2: after DONE with an error set, FINISH is dropped silently. -/
theorem test_finish_in_error_dropped :
    statusOf (exec .finish (around { doneCore with errCmd := true, errBusy := true })) = some 0x0000000e := by decide

/-! ### The step -/

/-- R100: a core step of the "abc" block is round 0 of 95, section 5.1. -/
theorem test_core_step_is_round_zero :
    (coreOf (step (coreNext { running 0 .last with v := iv, w := blockWords (blockAt (pad abc) 0) }))).map (fun c => (c.v.a, c.v.e, c.t)) =
      some (0x5d6aebcd, 0xfa2a4622, 1) := by decide

/-- 95, section 3.3: FOLD with PAD2 keeps STATUS at 1, and sets TAIL to LAST. -/
theorem test_fold_pad2 :
    (coreOf (step (coreNext { running 64 .pad2 with len := 0x1c0 }))).map (fun c => (statusWord c, c.tail, c.w[15], c.t)) =
      some (0x00000001, .last, 0x000001c0, 0) := by decide

/-- 95, section 8: reset in any state. -/
theorem test_reset_turn :
    coreOf (step { around { running 7 .pad2 with din := 3, errLen := true } with sched := only .reset }) =
      some CoreState.reset := by decide

theorem test_step_misaligned_refused :
    refusalIn (step (hostAt (.wr 0x41 4 0) State.reset)) = some .outsideWindow ∧
    refusalIn (step (hostAt (.wr 0x04 2 0) State.reset)) = some .notWordAccess ∧
    refusalIn (step (hostAt (.rd 0x05 4 0) State.reset)) = some .misalignedAccess := by decide

/-- R101: `RD DIGEST3 -> r5` writes `r5` and no other register. -/
theorem test_read_into_register :
    (match step (hostAt (.rd 0x2c 4 5) State.reset) with
      | .next s => some (s.host.regs[5], s.host.regs[4], s.host.regs[0], s.host.pc)
      | _ => none) = some (0xa54ff53a, 0, 0, 1) := by decide

/-- The placed table word is what the next step runs: WR DIN with DATA, then RD DIGEST3 into `r0`. -/
theorem test_fetch_wrDin : (coreOf (step (State.reset.withFetchWord 40 0x6162636444))).map (·.din) = some 0x61626364 := by
  decide
theorem test_fetch_rdDigest :
    (match step (State.reset.withFetchWord 8 0x2c) with
      | .next s => some (s.host.regs[0], s.host.pc)
      | _ => none) = some (0xa54ff53a, 1) := by decide
theorem test_fetch_finish : statusOf (step (State.reset.withFetchWord 32 0x00000003)) = some 0x00000001 := by decide

/-- R102: the expansion of PUSHB and WAIT, as program P2 of 95 writes them. -/
theorem test_pseudo_expansions :
    pushbOps 3 0x61626300 = [.wr 0x04 4 0x61626300, .wr 0x00 4 0x00000302] ∧
    pushwOps 5 = [.wr 0x04 4 5, .wr 0x00 4 0x00000402] ∧
    waitdoneOps 4 = [.rd 0x08 4 15, .bbs 15 0 4] ∧ readdigOps.getLast? = some (.rd 0x3c 4 7) ∧
    nopOps = [.wr 0 4 0] ∧ initOps = [.wr 0 4 1] ∧ finishOps = [.wr 0 4 3] := by decide

/-! ### Witnesses: each statement's hypotheses are met, clause by clause -/

theorem witness_EncodeOfDecodeIsTheInput :
    decode (.command 0x00000402) = .ok .push4 ∧ decode (.bus 0x7c 9) = .ok (.wrDigest 7 9) ∧
    decode (.bus 0x3c 9) = .ok (.rdDigest 7) := by decide

theorem witness_IllegalWordsAreTheThreeClasses :
    decodeCommand 0x00000010 = .illegal ∧ decodeCommand 0x00000800 = .illegal ∧ decodeCommand 0x00000004 = .illegal ∧
    decodeCommand 0x00000101 = .illegal ∧ decodeCommand 0x00000002 = .illegal ∧ decodeCommand 0x00000402 ≠ .illegal := by decide

theorem witness_AddressSelectsTheRegister :
    (∃ i : Instr, ([.rdCtrl, .rdDin] : List Instr)[0]? = some i) ∧
    ∃ i : Instr, ([.wrCtrl 9, .wrDin 9] : List Instr)[1]? = some i := ⟨⟨_, rfl⟩, ⟨_, rfl⟩⟩

theorem test_busRead_last_slot : decodeAccess (.busRead 0x3c) = .ok (.rdDigest 7) := by decide
theorem test_busWrite_last_slot : decodeAccess (.busWrite 0x3c 9) = .ok (.wrDigest 7 9) := by decide

theorem witness_StepPerformsTheDecodedAccess :
    nextTurn (hostAt (.wr 0x04 4 9) State.reset) = .host ∧ currentOp (hostAt (.wr 0x04 4 9) State.reset) = .wr 0x04 4 9 ∧
    decodeAccess ⟨true, 0x04, 4, 9⟩ = .ok (.wrDin 9) ∧
    nextTurn (hostAt (.rd 0x3c 4 15) State.reset) = .host ∧
    currentOp (hostAt (.rd 0x3c 4 15) State.reset) = .rd 0x3c 4 15 ∧
    decodeAccess ⟨false, 0x3c, 4, 0⟩ = .ok (.rdDigest 7) := by decide

theorem witness_StepPerformsTheWrittenCommand :
    nextTurn (hostAt (.wr 0x00 4 0x302) State.reset) = .host ∧
    currentOp (hostAt (.wr 0x00 4 0x302) State.reset) = .wr 0x00 4 0x302 ∧
    (decodeCommand 0x302).toInstr = some .push3 := by decide

theorem witness_StepRefusesAnAccessOutsideTheInterface :
    HostAccess.inWindow ⟨true, 64, 4, 0⟩ = false ∧ HostAccess.inWindow ⟨false, -1, 4, 0⟩ = false ∧
    (HostAccess.inWindow ⟨true, 60, 8, 0⟩ = true ∧ (8 : Nat) ≠ 4) ∧
    (HostAccess.inWindow ⟨false, 63, 4, 0⟩ = true ∧ (63 : Int) % 4 ≠ 0) ∧
    nextTurn (hostAt (.wr 64 4 0) State.reset) = .host ∧ currentOp (hostAt (.wr 64 4 0) State.reset) = .wr 64 4 0 ∧
    currentOp (hostAt (.rd 63 4 2) State.reset) = .rd 63 4 2 := by decide

theorem witness_PlacedWordIsTheNextInstruction :
    (decodeTableWord 8 0x7c = some (.wrDigest 7 0) ∧ 0x7c < 2 ^ 8 ∧ Instr.wrDigest 7 0 ∉ readRows) ∧
    (decodeTableWord 8 0x3c = some (.rdDigest 7) ∧ 0x3c < 2 ^ 8 ∧ Instr.rdDigest 7 ∈ readRows) ∧
    (decodeTableWord 32 0x402 = some .push4 ∧ 0x402 < 2 ^ 32 ∧ Instr.push4 ∉ readRows) ∧
    decodeTableWord 40 0xffffffff44 = some (.wrDin 0xffffffff) ∧ 0xffffffff44 < 2 ^ 40 := by decide

theorem witness_HostBranchesOnABit :
    nextTurn (hostAt (.bbs 15 31 0) State.reset) = .host ∧ currentOp (hostAt (.bbs 15 31 0) State.reset) = .bbs 15 31 0 ∧
    nextTurn (hostAt (.bbc 0 0 1) State.reset) = .host ∧ currentOp (hostAt (.bbc 0 0 1) State.reset) = .bbc 0 0 1 ∧
    nextTurn (hostAt .halt State.reset) = .host ∧ currentOp (hostAt .halt State.reset) = .halt ∧ currentOp State.reset = .halt := by decide

theorem witness_StepPerformsTheSequencerStep :
    nextTurn { State.reset with sched := only .core } = .core ∧ State.reset.core.busy = false ∧
    nextTurn (coreNext (running 5 .none)) = .core := by decide

theorem witness_ResetAgreesWithInit : nextTurn { around (running 3 .pad2) with sched := only .reset } = .reset := by decide

theorem witness_InitBeginsANewMessage : Instr.init ∈ [Instr.init, .wrCtrl 0x00000001] := by decide

theorem witness_NopHasNoEffect : Instr.wrCtrl 0 ∈ [Instr.nop, .wrCtrl 0x00000000] := by decide

theorem witness_OtherWritesAreIgnored :
    Instr.wrDigest 7 5 ∈ [Instr.wrStatus 5, .wrLenLo 5, .wrLenHi 5, .wrRsv5 5, .wrRsv6 5, .wrRsv7 5, .wrDigest 7 5] := by
  decide

theorem witness_IllegalWordSetsErrCmd : decodeCommand 0xffffffff = .illegal := by decide

theorem witness_BusyCommandSetsErrBusy :
    Instr.wrCtrl 0x00000003 ∈ finishRows ∧ (Instr.push4, 4) ∈ pushRows ∧ (running 0 .last).busy = true := by decide

theorem witness_ErrorDropsLaterCommands :
    Instr.finish ∈ finishRows ∧ (Instr.wrCtrl 0x00000102, 1) ∈ pushRows ∧
    CoreState.busy { doneCore with errLen := true } = false ∧ errAny { doneCore with errLen := true } = true := by decide

theorem witness_CommandAfterDoneSetsErrSeq :
    Instr.finish ∈ finishRows ∧ (Instr.push1, 1) ∈ pushRows ∧ doneCore.busy = false ∧ errAny doneCore = false ∧
    doneCore.done = true := by decide

theorem witness_TooLongPushSetsErrLen :
    (Instr.push2, 2) ∈ pushRows ∧ (counted 62 0xfffffffffffffff0).busy = false ∧
    errAny (counted 62 0xfffffffffffffff0) = false ∧ (counted 62 0xfffffffffffffff0).done = false ∧
    2 ^ 64 - 1 < (counted 62 0xfffffffffffffff0).len.toNat + 8 * 2 := by decide

/-- Each flag newly set by its cause. -/
theorem witness_EachErrorHasItsCause :
    (coreOf (exec (.wrCtrl 0x10) State.reset)).map (·.errCmd) = some true ∧
    (coreOf (exec .push1 (around (running 0 .none)))).map (·.errBusy) = some true ∧
    (coreOf (exec .finish (around doneCore))).map (·.errSeq) = some true ∧
    (coreOf (exec .push2 (around (counted 62 0xfffffffffffffff0)))).map (·.errLen) = some true := by decide

theorem witness_OneCommandSetsAtMostOneFlag :
    errorFlag .cmd State.reset.core = false ∧
    (coreOf (exec (.wrCtrl 0x10) State.reset)).map (errorFlag .cmd) = some true := by decide

/-- INIT and reset do clear a flag. -/
theorem witness_OnlyInitAndResetClearErrors :
    (coreOf (step (hostAt (.wr 0 4 1) (around { doneCore with errSeq := true })))).map (errorFlag .seq) = some false ∧
    (coreOf (step { around { doneCore with errLen := true } with sched := only .reset })).map (errorFlag .len) = some false := by
  decide

theorem witness_PushAppendsBytesOfDin :
    (Instr.push4, 4) ∈ pushRows ∧ (counted 59 0x1d8).busy = false ∧ errAny (counted 59 0x1d8) = false ∧
    (counted 59 0x1d8).done = false ∧ (counted 59 0x1d8).len.toNat + 8 * 4 ≤ 2 ^ 64 - 1 ∧
    (counted 59 0x1d8).bcnt.val + 4 < 64 := by decide

theorem witness_PushThatFillsLoadsTheBlock :
    (Instr.push1, 1) ∈ pushRows ∧ (Instr.wrCtrl 0x00000402, 4) ∈ pushRows ∧ (counted 63 0x1f8).busy = false ∧
    errAny (counted 63 0x1f8) = false ∧ (counted 63 0x1f8).done = false ∧
    (counted 63 0x1f8).len.toNat + 8 * 4 ≤ 2 ^ 64 - 1 ∧ 64 ≤ (counted 63 0x1f8).bcnt.val + 1 := by decide

/-- Both padding cases, at the boundary. -/
theorem witness_FinishLoadsThePaddedBlock :
    Instr.finish ∈ finishRows ∧ Instr.wrCtrl 0x00000003 ∈ finishRows ∧
    ((counted 55 0x1b8).busy = false ∧ errAny (counted 55 0x1b8) = false ∧ (counted 55 0x1b8).done = false) ∧
    ((counted 56 0x1c0).busy = false ∧ errAny (counted 56 0x1c0) = false ∧ (counted 56 0x1c0).done = false) := by decide

theorem witness_BlockWordsAreBigEndian : (15 : Nat) < 16 ∧ (blockWords (blockAt (pad abc) 0))[0] = 0x61626380 := by decide

theorem witness_LengthFieldIsTheLastTwoWords : (counted 55 0x1b8).bcnt.val ≤ 55 ∧ (counted 0 0).bcnt.val ≤ 55 := by decide

/-- An aligned place in the middle of the buffer, and the one that fills it. -/
theorem witness_PushedWordIsTheScheduleWord :
    (Instr.push4, 4) ∈ pushRows ∧
    ([counted 4 0x20, counted 60 0x1e0].all fun c => decide (c.busy = false ∧ errAny c = false ∧ c.done = false ∧
      c.len.toNat + 32 ≤ 2 ^ 64 - 1 ∧ c.bcnt.val % 4 = 0)) = true ∧ (counted 60 0x1e0).bcnt.val = 60 := by decide

/-- The first round of each kind, and the last. -/
theorem witness_RoundPerformsOneRound :
    ((running 0 .last).busy = true ∧ (running 0 .last).t.val < 64) ∧
    ((running 16 .none).busy = true ∧ 16 ≤ (running 16 .none).t.val ∧ (running 16 .none).t.val < 64) ∧
    ((running 63 .pad2).busy = true ∧ (running 63 .pad2).t.val < 64) := by decide

theorem witness_FoldFoldsAndContinuesByTail :
    ([Tail.none, .last, .pad2].all fun tl =>
      decide ((running 64 tl).busy = true ∧ (running 64 tl).t.val = 64 ∧ (running 64 tl).tail = tl)) = true := by decide

/-- A block just LOADed: the hypotheses of the window's and the compression's statement. -/
theorem witness_SixtyFiveStepsCompressTheBlock :
    (padFinal CoreState.reset).busy = true ∧ (padFinal CoreState.reset).t = 0 ∧
    (padFinal CoreState.reset).w = blockWords (padFinal CoreState.reset).buf ∧
    (padFinal CoreState.reset).v = (padFinal CoreState.reset).h ∧ (padFinal CoreState.reset).tail = .last ∧
    (padFinal (counted 56 0x1c0)).tail = .pad2 := by decide

theorem witness_WindowAgreesWithTheSchedule :
    (padFinal CoreState.reset).busy = true ∧ (padFinal CoreState.reset).t = 0 ∧
    (padFinal CoreState.reset).w = blockWords (padFinal CoreState.reset).buf ∧ 63 < 64 ∧ 16 ≤ 63 ∧ 16 ≤ 16 := by decide

theorem witness_BusySequencerGoesIdle :
    ((running 64 .last).busy = true ∧ 1 = 65 - (running 64 .last).t.val + (if (running 64 .last).tail = .pad2 then 65 else 0)) ∧
    ((running 0 .pad2).busy = true ∧
      130 = 65 - (running 0 .pad2).t.val + (if (running 0 .pad2).tail = .pad2 then 65 else 0)) := by decide

/-- An infinite run from a busy state, in the free order: the host has no program, and every step has a next state. -/
theorem witness_BusySequencerGoesIdle_run :
    ∃ run : Nat → State, (∀ i, step (run i) = .next (run (i + 1))) ∧ (run 0).core.busy = true := by
  have next : ∀ s : State, s.host.prog = [] → ∃ t, step s = .next t ∧ t.host.prog = [] := by
    intro s hp
    unfold step
    cases nextTurn s
    · exact ⟨takeTurn s, by simp [takeStep, hostTurn, currentOp, hp], hp⟩
    · exact ⟨_, rfl, hp⟩
    · exact ⟨_, rfl, hp⟩
  choose f hf using fun s : { s : State // s.host.prog = [] } => next s.1 s.2
  let run : Nat → { s : State // s.host.prog = [] } :=
    fun n => (fun s => ⟨f s, (hf s).2⟩)^[n] ⟨around (running 0 .pad2), rfl⟩
  refine ⟨fun n => (run n).1, fun i => ?_, rfl⟩
  simp only [run, Function.iterate_succ_apply']
  exact (hf _).1

/-- Each of the three kinds of access, before a ROUND and before a FOLD. -/
theorem witness_HarmlessAccessCommutesWithACoreStep :
    commandOf (.wrDin 3) = none ∧ commandOf .nop = some .nop ∧ commandOf (.wrCtrl 0x10) = some .illegal ∧
    coreOf (exec (.wrDin 3) (around (running 64 .last))) ≠ none ∧
    coreOf (exec (.wrDin 3) (coreTurn (around (running 64 .last)))) ≠ none ∧
    coreOf (exec (.wrCtrl 0x10) (around (running 0 .none))) ≠ none ∧
    coreOf (exec (.wrCtrl 0x10) (coreTurn (around (running 0 .none)))) ≠ none := by decide

theorem witness_RotateAndShiftMoveBits :
    (rotr 1 31).getLsbD 1 = true ∧ (rotr 1 32).getLsbD 0 = true ∧ (31 : Nat) < 32 ∧ (shr 0x80000000 31).getLsbD 0 = true ∧ (0 : Nat) < 32 := by decide

theorem witness_ChoiceAndMajorityByBits :
    (31 : Nat) < 32 ∧ (choice 0x80000000 0x80000000 0).getLsbD 31 = true ∧
    (majority 0x80000000 0x80000000 0).getLsbD 31 = true := by decide

/-- R126 to R129 at the last bit: 95, section 2.1, the row of `80000000`. -/
theorem witness_MixingFunctionsAreLinear :
    (31 : Nat) < 32 ∧ (sigma0 0x80000000).getLsbD 29 = true ∧ (phi0 0x80000000).getLsbD 31 = false ∧
    (phi0 0x80000000).getLsbD 28 = true := by decide

theorem witness_PadHasTheStatedProperties : abc.length ≤ 2 ^ 61 - 1 ∧ ([] : List Byte).length ≤ 2 ^ 61 - 1 := by decide

theorem witness_DigestRendersAsSixtyFourHexDigits :
    (7 : Nat) < 8 ∧ (renderDigest iv)[63]? = some '9' ∧ '9' ∈ renderDigest iv := by decide

/-- A state that meets the invariant and has DONE, and the steps that change it. -/
theorem witness_EveryStepKeepsTheInvariant :
    CoreInv doneCore ∧ CoreInv { running 64 .last with len := 0x18 } ∧ CoreInv (counted 62 0x1f0) ∧
    coreOf (step (coreNext { running 64 .last with len := 0x18 })) ≠ none := by decide

theorem witness_OnlyInitResetAndFoldWriteH :
    (coreOf (step (coreNext { running 64 .last with v := iv }))).map (fun c => decide (c.h ≠ iv)) = some true ∧
    (coreOf (step (hostAt (.wr 0 4 1) (around { doneCore with h := ⟨0, 0, 0, 0, 0, 0, 0, 0⟩ })))).map (·.h) = some iv := by decide

theorem witness_OnlyTheNamedWritersChangeDinAndLen :
    (coreOf (step (hostAt (.wr 0x04 4 9) State.reset))).map (·.din) = some 9 ∧
    (coreOf (step (hostAt (.wr 0x00 4 0x102) State.reset))).map (·.len) = some 8 ∧
    (coreOf (step (hostAt (.wr 0x00 4 1) (around (counted 1 8))))).map (·.len) = some 0 := by decide

/-- Each of the changes; BUSY falls by a FOLD, by INIT and by reset. -/
theorem witness_BusyAndDoneChangeOnlyAsStated :
    (coreOf (step (hostAt (.wr 0x00 4 3) State.reset))).map (·.busy) = some true ∧
    (coreOf (step (hostAt (.wr 0x00 4 0x102) (around (counted 63 0x1f8))))).map (·.busy) = some true ∧
    (coreOf (step (coreNext (running 64 .none)))).map (·.busy) = some false ∧
    (coreOf (step (hostAt (.wr 0x00 4 1) (around (running 9 .pad2))))).map (·.busy) = some false ∧
    (coreOf (step { around (running 9 .pad2) with sched := only .reset })).map (·.busy) = some false ∧
    (coreOf (step (coreNext (running 64 .last)))).map (·.done) = some true ∧
    (coreOf (step (hostAt (.wr 0x00 4 1) (around doneCore)))).map (·.done) = some false := by decide

/-- A read after DONE: no reset, and no INIT. -/
theorem witness_DigestIsStableAfterDone :
    CoreInv doneCore ∧ doneCore.done = true ∧ coreOf (step (hostAt (.rd 0x20 4 0) (around doneCore))) = some doneCore ∧
    nextTurn (hostAt (.rd 0x20 4 0) (around doneCore)) ≠ .reset ∧
    ¬ issues (hostAt (.rd 0x20 4 0) (around doneCore)) .init := by
  refine ⟨by decide, by decide, by decide, by decide, fun ⟨_, v, h, _⟩ => ?_⟩
  cases h

/-- Two states that differ in V, W and BUF, and step; and that refuse. -/
theorem witness_UnspecifiedResetValuesAreNotObserved :
    Agree (around { CoreState.reset with v := iv, w := Vector.replicate 16 7, buf := Vector.replicate 64 9 }) State.reset ∧
    Agree (hostAt .halt State.reset) (hostAt .halt State.reset) ∧ coreOf (step (hostAt .halt State.reset)) ≠ none ∧
    Agree (hostAt (.wr 64 4 0) State.reset) (hostAt (.wr 64 4 0) State.reset) ∧
    refusalIn (step (hostAt (.wr 64 4 0) State.reset)) ≠ none := by
  have same : ∀ s, Agree s s := fun s =>
    ⟨⟨rfl, rfl, rfl, rfl, rfl, rfl, rfl, rfl, rfl, rfl, rfl, rfl, fun _ => ⟨rfl, rfl⟩, fun _ _ => rfl⟩, rfl, rfl, rfl⟩
  refine ⟨⟨⟨rfl, rfl, rfl, rfl, rfl, rfl, rfl, rfl, rfl, rfl, rfl, rfl, fun h => ?_, fun k hk => ?_⟩, rfl, rfl, rfl⟩,
    same _, by decide, same _, by decide⟩
  · cases h
  · exact absurd hk (Nat.not_lt_zero _)

/-- An open message of one byte. -/
theorem witness_OpenMessageIsHeld :
    MessageRun (pushBytes 1 CoreState.reset) [0] false [] :=
  .push (i := .push1) (s := State.reset) (m := []) (l := []) (.reset rfl) rfl rfl rfl

/-- FINISH of the empty message. -/
theorem witness_closed_run :
    MessageRun (padFinal CoreState.reset) [] true [(padFinal CoreState.reset).w] :=
  .finish (i := .finish) (s := State.reset) (m := []) (l := []) (.reset rfl) rfl rfl rfl

theorem witness_LoadedBlocksAreThePaddedMessage :
    ∃ c m l, MessageRun c m true l ∧ c.tail = .last := ⟨_, _, _, witness_closed_run, rfl⟩

/-- The empty message, finished and compressed: DONE. -/
theorem witness_DoneMeansTheDigestOfTheMessage :
    ∃ (s : State) (l : List (Vector Word 16)), MessageRun s.core [] true l ∧ s.core.done = true := by
  have run : ∀ n, ∃ l, MessageRun (sequencerStep^[n] (padFinal CoreState.reset)) [] true l := by
    intro n
    induction n with
    | zero => exact ⟨_, witness_closed_run⟩
    | succ n ih =>
      obtain ⟨l, h⟩ := ih
      rw [Function.iterate_succ_apply']
      exact ⟨_, .core h⟩
  have flight : ∀ n, n ≤ 64 → ∃ v w t, sequencerStep^[n] (padFinal CoreState.reset) =
      { padFinal CoreState.reset with v := v, w := w, t := t } ∧ t.val = n := by
    intro n hn
    induction n with
    | zero => exact ⟨_, _, _, rfl, rfl⟩
    | succ n ih =>
      obtain ⟨v, w, t, e, ht⟩ := ih (by omega)
      rw [Function.iterate_succ_apply', e, sequencerStep_round rfl (by simp only; omega)]
      exact ⟨_, _, _, rfl, by simp [ht]⟩
  obtain ⟨l, h⟩ := run 65
  obtain ⟨v, w, t, e, ht⟩ := flight 64 (by omega)
  have done : (sequencerStep^[65] (padFinal CoreState.reset)).done = true := by
    rw [Function.iterate_succ_apply', e, sequencerStep_fold rfl ht]
    rfl
  generalize sequencerStep^[65] (padFinal CoreState.reset) = c at h done
  exact ⟨around c, l, h, done⟩

theorem witness_EveryStepContinuesAMessageRun :
    MessageRun State.reset.core [] false [] ∧ coreOf (step (hostAt (.wr 0 4 0x102) State.reset)) ≠ none :=
  ⟨.reset rfl, by decide⟩

theorem witness_InstancesAreIndependent :
    (match systemStep 1 [State.reset, hostAt (.wr 0x04 4 9) State.reset] with
      | .next sys => some (sys.map (·.core.din))
      | _ => none) = some [0, 9] ∧ (0 : Nat) ≠ 1 := by decide

end Sys2Proof.Tests
end

-- The statements of spec/10_state.md: the invariant of R37, and who writes each register.
section

namespace Sys2Proof.Machine

/-! ### What one step can do to CORE -/

/-- `CoreChange s d`: a step from `s` can leave CORE in the state `d`, with whose turn it is or what the host issues. A
dropped command stands under `keep` or `raise`. `step_coreChange` ties it to `step`. -/
inductive CoreChange (s : State) : CoreState → Prop
  | keep : CoreChange s s.core
  | reset : nextTurn s = .reset → CoreChange s CoreState.reset
  | round (ht : s.core.t.val < 64) : nextTurn s = .core → s.core.busy = true → CoreChange s (roundStep s.core ht)
  | fold : nextTurn s = .core → s.core.busy = true → s.core.t.val = 64 → CoreChange s (foldStep s.core)
  | din (x : Word) : nextTurn s = .host → currentOp s = .wr 0x04 4 x → CoreChange s (writeDin x s.core)
  | raise (e : ErrorFlag) : CoreChange s (raiseError e s.core)
  | init : issues s .init → CoreChange s (initCore s.core)
  | push (nb : Nat) : issues s (.push nb) → nb ≤ 4 → s.core.busy = false → s.core.done = false →
      lengthFits nb s.core = true → CoreChange s (pushBytes nb s.core)
  | finish : issues s .finish → s.core.busy = false → s.core.done = false → CoreChange s (padFinal s.core)

/-- What an access does to CORE: nothing, WR DIN's write, or the command it issues. -/
theorem exec_core {i : Instr} {u v : State} (h : exec i u = .next v) :
    v.core = u.core ∨ (∃ x, i = .wrDin x ∧ v.core = writeDin x u.core) ∨
    ∃ cmd, commandOf i = some cmd ∧ v.core = performCommand cmd u.core := by
  cases hc : commandOf i with
  | some cmd =>
    rw [exec_command hc] at h
    cases h
    exact .inr (.inr ⟨cmd, rfl, rfl⟩)
  | none =>
    cases i with
    | wrDin x =>
      cases h
      exact .inr (.inl ⟨x, rfl, rfl⟩)
    | nop | init | push1 | push2 | push3 | push4 | finish | wrCtrl => cases hc
    | rdCtrl | rdDin | rdStatus | rdLenLo | rdLenHi | rdRsv5 | rdRsv6 | rdRsv7 | rdDigest
    | wrStatus | wrLenLo | wrLenHi | wrRsv5 | wrRsv6 | wrRsv7 | wrDigest =>
      cases h
      exact .inl rfl

/-- Every step changes CORE in one of these ways. -/
theorem step_coreChange {s t : State} (h : step s = .next t) : CoreChange s t.core := by
  rcases step_core h with ⟨i, u, v, hn, hx, hu, hv, hdin, hcmd⟩ | ⟨hn, e⟩ | ⟨hn, e⟩ | ⟨_, e⟩
  · rw [← hv]
    rcases exec_core hx with e | ⟨x, hi, e⟩ | ⟨cmd, hi, e⟩ <;> rw [e, hu]
    · exact .keep
    · exact .din x hn (hdin x hi)
    · have hs := hcmd cmd hi
      rcases performCommand_cases cmd s.core with
        e | ⟨f, e⟩ | ⟨rfl, e⟩ | ⟨nb, rfl, hb, _, hd, hl, e⟩ | ⟨rfl, hb, _, hd, e⟩ <;> rw [e]
      · exact .keep
      · exact .raise f
      · exact .init hs
      · exact .push nb hs (commandOf_push_range hi).2 hb hd hl
      · exact .finish hs hb hd
  · rcases sequencerStep_cases s.core with ⟨_, e'⟩ | ⟨hb, ht, e'⟩ | ⟨hb, ht, e'⟩ <;> rw [e, e']
    · exact .keep
    · exact .round ht hn hb
    · exact .fold hn hb ht
  · rw [e]
    exact .reset hn
  · rw [e]
    exact .keep

/-! ### FOLD and the error flags, field by field -/

@[simp] theorem foldStep_bcnt (c : CoreState) : (foldStep c).bcnt = c.bcnt := by
  unfold foldStep; split <;> rfl
@[simp] theorem foldStep_din (c : CoreState) : (foldStep c).din = c.din := by
  unfold foldStep; split <;> rfl
@[simp] theorem foldStep_len (c : CoreState) : (foldStep c).len = c.len := by
  unfold foldStep; split <;> rfl
@[simp] theorem foldStep_t (c : CoreState) : (foldStep c).t = 0 := by
  unfold foldStep; split <;> rfl

/-- R196: FOLD leaves `BUSY = 1` only to load the second padding block. -/
@[simp] theorem foldStep_busy (c : CoreState) : (foldStep c).busy = decide (c.tail = .pad2) := by
  unfold foldStep; split <;> simp [*]

/-- R27: FOLD of the last block sets DONE. -/
@[simp] theorem foldStep_done (c : CoreState) : (foldStep c).done = (decide (c.tail = .last) || c.done) := by
  unfold foldStep; split <;> simp [*]

@[simp] theorem foldStep_tail (c : CoreState) : (foldStep c).tail = if c.tail = .pad2 then .last else .none := by
  unfold foldStep; split <;> simp [*]

@[simp] theorem errorFlag_foldStep (e : ErrorFlag) (c : CoreState) : errorFlag e (foldStep c) = errorFlag e c := by
  unfold foldStep; cases e <;> split <;> rfl
@[simp] theorem errorFlag_roundStep (e : ErrorFlag) (c : CoreState) (h : c.t.val < 64) :
    errorFlag e (roundStep c h) = errorFlag e c := by
  cases e <;> rfl
@[simp] theorem errorFlag_writeDin (e : ErrorFlag) (x : Word) (c : CoreState) :
    errorFlag e (writeDin x c) = errorFlag e c := by
  cases e <;> rfl
@[simp] theorem errorFlag_padFinal (e : ErrorFlag) (c : CoreState) : errorFlag e (padFinal c) = errorFlag e c := by
  cases e <;> rfl

/-- R262: raising a flag keeps those already up. -/
@[simp] theorem errorFlag_raiseError (e f : ErrorFlag) (c : CoreState) :
    errorFlag e (raiseError f c) = (decide (f = e) || errorFlag e c) := by
  cases e <;> simp [errorFlag]

/-! ### The invariant of R37, operation by operation -/

theorem coreInv_reset : CoreInv CoreState.reset := by decide

theorem coreInv_raiseError {c : CoreState} (e : ErrorFlag) (hc : CoreInv c) : CoreInv (raiseError e c) := by
  simpa [CoreInv] using hc

theorem coreInv_writeDin {c : CoreState} (x : Word) (hc : CoreInv c) : CoreInv (writeDin x c) := hc

theorem coreInv_initCore (c : CoreState) : CoreInv (initCore c) := by
  simp [CoreInv]

/-- ROUND changes none of the invariant's registers but `t`, and `t` is bound only while idle. -/
theorem coreInv_roundStep {c : CoreState} (hb : c.busy = true) (ht : c.t.val < 64) (hc : CoreInv c) :
    CoreInv (roundStep c ht) := by
  obtain ⟨-, hdone, htail, hcnt, hlen⟩ := hc
  exact ⟨fun hidle => absurd hb (by simpa using hidle), hdone, htail, hcnt, hlen⟩

/-- R196: FOLD goes idle with `TAIL = NONE`, or keeps a TAIL pending with `BUSY = 1`; a block in flight means no DONE yet. -/
theorem coreInv_foldStep {c : CoreState} (hb : c.busy = true) (hc : CoreInv c) : CoreInv (foldStep c) := by
  obtain ⟨-, hdone, htail, hcnt, hlen⟩ := hc
  have hd : c.done = false := by
    cases h : c.done with
    | false => rfl
    | true => exact absurd hb (by simp [hdone h])
  cases hT : c.tail with
  | none => simpa [CoreInv, hT, hd, hlen] using hcnt hd hT
  | last => simpa [CoreInv, hT] using hlen
  | pad2 => simp [CoreInv, hT, hd, hlen, htail]

/-- R154: PushBytes moves BCNT and LEN together, and leaves `TAIL = NONE`. -/
theorem coreInv_pushBytes {nb : Nat} {c : CoreState} (h4 : nb ≤ 4) (hb : c.busy = false) (hd : c.done = false)
    (hl : lengthFits nb c = true) (hc : CoreInv c) : CoreInv (pushBytes nb c) := by
  obtain ⟨hidle, -, -, hcnt, hlen⟩ := hc
  obtain ⟨ht, htail⟩ := hidle hb
  obtain ⟨elen, ebcnt, -, -, edone, etail, -, eidle, -⟩ := pushBytes_effect nb c h4 hl
  have etail' : (pushBytes nb c).tail = .none := etail.elim (·.trans htail) id
  have hcnt' := hcnt hd htail
  refine ⟨fun h => ⟨(eidle h).1.trans ht, etail'⟩, fun h => ?_, fun h => absurd etail' h, fun _ _ => ?_, ?_⟩
  · rw [edone, hd] at h
    cases h
  · rw [ebcnt, elen]
    omega
  · rw [elen]
    omega

/-- R156: PadFinal leaves `BUSY = 1`, `BCNT = 0` and a TAIL pending. -/
theorem coreInv_padFinal {c : CoreState} (hd : c.done = false) (hc : CoreInv c) : CoreInv (padFinal c) := by
  obtain ⟨-, -, -, -, hlen⟩ := hc
  have htail : (padFinal c).tail ≠ .none := by
    rw [padFinal_tail]
    split <;> simp
  exact ⟨by simp, by simp [hd], by simp, fun _ h => absurd h htail, hlen⟩

namespace CoreChange

variable {s : State} {d : CoreState}

theorem coreInv (h : CoreChange s d) (hc : CoreInv s.core) : CoreInv d := by
  cases h with
  | keep => exact hc
  | reset _ => exact coreInv_reset
  | round ht _ hb => exact coreInv_roundStep hb ht hc
  | fold _ hb _ => exact coreInv_foldStep hb hc
  | din x _ _ => exact coreInv_writeDin x hc
  | raise e => exact coreInv_raiseError e hc
  | init _ => exact coreInv_initCore s.core
  | push nb _ h4 hb hd hl => exact coreInv_pushBytes h4 hb hd hl hc
  | finish _ _ hd => exact coreInv_padFinal hd hc

/-! ### Who writes each register -/

/-- R28: an error flag that is 1 stays 1, but for INIT and reset. -/
theorem errorFlag_keeps (h : CoreChange s d) (e : ErrorFlag) (he : errorFlag e s.core = true) :
    errorFlag e d = true ∨ nextTurn s = .reset ∨ issues s .init := by
  cases h with
  | keep => exact .inl he
  | reset hn => exact .inr (.inl hn)
  | init hs => exact .inr (.inr hs)
  | push nb _ h4 _ _ hl =>
    obtain ⟨-, -, -, -, -, -, -, -, eflag⟩ := pushBytes_effect nb s.core h4 hl
    exact .inl ((eflag e).trans he)
  | round | fold | din | raise | finish => exact .inl (by simp [he])

/-- R20: the writers of H. -/
theorem h_writers (h : CoreChange s d) (hne : d.h ≠ s.core.h) :
    nextTurn s = .reset ∨ issues s .init ∨ (nextTurn s = .core ∧ s.core.busy = true ∧ s.core.t.val = 64) := by
  cases h with
  | reset hn => exact .inl hn
  | init hs => exact .inr (.inl hs)
  | fold hn hb ht => exact .inr (.inr ⟨hn, hb, ht⟩)
  | push nb _ h4 _ _ hl =>
    obtain ⟨-, -, eh, -⟩ := pushBytes_effect nb s.core h4 hl
    exact absurd eh hne
  | keep | round | din | raise | finish => exact absurd (by simp) hne

/-- R24: the writers of DIN, and the value the host's write stores. -/
theorem din_writers (h : CoreChange s d) (hne : d.din ≠ s.core.din) :
    nextTurn s = .reset ∨ (nextTurn s = .host ∧ currentOp s = .wr 0x04 4 d.din) := by
  cases h with
  | reset hn => exact .inl hn
  | din x hn hop => exact .inr ⟨hn, hop⟩
  | push nb _ h4 _ _ hl =>
    obtain ⟨-, -, -, edin, -⟩ := pushBytes_effect nb s.core h4 hl
    exact absurd edin hne
  | keep | round | fold | raise | init | finish => exact absurd (by simp) hne

/-- R25: the writers of LEN. -/
theorem len_writers (h : CoreChange s d) (hne : d.len ≠ s.core.len) :
    nextTurn s = .reset ∨ issues s .init ∨ ∃ nb, issues s (.push nb) := by
  cases h with
  | reset hn => exact .inl hn
  | init hs => exact .inr (.inl hs)
  | push nb hs => exact .inr (.inr ⟨nb, hs⟩)
  | keep | round | fold | din | raise | finish => exact absurd (by simp) hne

/-- R26: BUSY rises by a FINISH, or by a PUSH that fills the buffer. -/
theorem busy_rises (h : CoreChange s d) (h0 : s.core.busy = false) (h1 : d.busy = true) :
    issues s .finish ∨ ∃ nb, issues s (.push nb) ∧ 64 ≤ s.core.bcnt.val + nb := by
  cases h with
  | finish hs => exact .inl hs
  | push nb hs h4 _ _ hl =>
    obtain ⟨-, -, -, -, -, -, ebusy, -⟩ := pushBytes_effect nb s.core h4 hl
    exact .inr ⟨nb, hs, by simpa [ebusy, h0] using h1⟩
  | reset _ => cases h1
  | init _ => cases h1
  | fold _ hb _ => simp [hb] at h0
  | keep | round | din | raise => simp [h0] at h1

/-- R26, R33: BUSY falls by a FOLD with no second padding block to load, INIT and reset. -/
theorem busy_falls (h : CoreChange s d) (h1 : s.core.busy = true) (h0 : d.busy = false) :
    (nextTurn s = .core ∧ s.core.t.val = 64 ∧ (s.core.tail = .none ∨ s.core.tail = .last)) ∨
      nextTurn s = .reset ∨ issues s .init := by
  cases h with
  | reset hn => exact .inr (.inl hn)
  | init hs => exact .inr (.inr hs)
  | fold hn _ ht =>
    refine .inl ⟨hn, ht, ?_⟩
    cases hT : s.core.tail with
    | none => exact .inl rfl
    | last => exact .inr rfl
    | pad2 => simp [hT] at h0
  | push _ _ _ hb => simp [hb] at h1
  | finish _ hb => simp [hb] at h1
  | keep | round | din | raise => simp [h1] at h0

/-- R27: DONE rises by the FOLD of the last block. -/
theorem done_rises (h : CoreChange s d) (h0 : s.core.done = false) (h1 : d.done = true) :
    nextTurn s = .core ∧ s.core.busy = true ∧ s.core.t.val = 64 ∧ s.core.tail = .last := by
  cases h with
  | fold hn hb ht => exact ⟨hn, hb, ht, by simpa [h0] using h1⟩
  | push nb _ h4 _ _ hl =>
    obtain ⟨-, -, -, -, edone, -⟩ := pushBytes_effect nb s.core h4 hl
    simp [edone, h0] at h1
  | reset _ => cases h1
  | init _ => cases h1
  | keep | round | din | raise | finish => simp [h0] at h1

/-- R27: DONE falls by INIT and reset. -/
theorem done_falls (h : CoreChange s d) (h1 : s.core.done = true) (h0 : d.done = false) :
    nextTurn s = .reset ∨ issues s .init := by
  cases h with
  | reset hn => exact .inl hn
  | init hs => exact .inr hs
  | push _ _ _ _ hd => simp [hd] at h1
  | finish _ _ hd => simp [hd] at h1
  | keep | round | fold | din | raise => simp [h1] at h0

end CoreChange

/-! ### The obligations -/

/-- Settles O50: the invariant is kept by each of the ways in which a step can change CORE. -/
theorem everyStepKeepsTheInvariant : Obligations.EveryStepKeepsTheInvariant :=
  fun _ _ hc h => (step_coreChange h).coreInv hc

/-- Settles O30: every other change of CORE keeps a flag that is up. -/
theorem onlyInitAndResetClearErrors : Obligations.OnlyInitAndResetClearErrors :=
  fun _ _ e h h1 h0 => ((step_coreChange h).errorFlag_keeps e h1).resolve_left (by simp [h0])

/-- Settles O51: no other change of CORE writes H. -/
theorem onlyInitResetAndFoldWriteH : Obligations.OnlyInitResetAndFoldWriteH :=
  fun _ _ h => (step_coreChange h).h_writers

/-- Settles O52: the writers of DIN, then those of LEN. -/
theorem onlyTheNamedWritersChangeDinAndLen : Obligations.OnlyTheNamedWritersChangeDinAndLen :=
  fun _ _ h => ⟨(step_coreChange h).din_writers, (step_coreChange h).len_writers⟩

/-- Settles O53: one lemma for each rise and each fall. -/
theorem busyAndDoneChangeOnlyAsStated : Obligations.BusyAndDoneChangeOnlyAsStated := fun _ _ h =>
  have hc := step_coreChange h
  ⟨hc.busy_rises, hc.busy_falls, hc.done_rises, hc.done_falls⟩

/-- Settles O49: the invariant's values at reset are fixed ones. -/
theorem resetMeetsTheInvariant : Obligations.ResetMeetsTheInvariant := coreInv_reset

end Sys2Proof.Machine
end

-- The statements of spec/20_memory.md: which accesses the window takes, and the order of bytes in words.
section

namespace Sys2Proof.Machine

/-! ### The fields of a descriptor (R91) -/

/-- ALIGN is the offset modulo 4. -/
theorem descriptorOf_align (wr : Bool) (n : Nat) : (descriptorOf wr n).extractLsb' 0 2 = BitVec.ofNat 2 n := by
  apply BitVec.eq_of_toNat_eq
  cases wr
  · simp [descriptorOf]
  · simp [descriptorOf]
    omega

/-- REG is `off[5:2]`. -/
theorem descriptorOf_reg (wr : Bool) (n : Nat) : (descriptorOf wr n).extractLsb' 2 4 = BitVec.ofNat 4 (n / 4) := by
  apply BitVec.eq_of_toNat_eq
  cases wr <;> (simp [descriptorOf, Nat.shiftRight_eq_div_pow]; omega)

/-- WR stands above the offset. -/
theorem descriptorOf_write (wr : Bool) (n : Nat) : (descriptorOf wr n).getLsbD 6 = wr := by
  have hoff : (n % 64).testBit 6 = false := Nat.testBit_lt_two_pow (Nat.mod_lt n (by decide))
  have hwr : (64 + n % 64).testBit 6 = !(n % 64).testBit 6 := Nat.testBit_two_pow_add_eq _ 6
  rw [descriptorOf, BitVec.getLsbD_ofNat]
  cases wr <;> simp [hoff, hwr]

/-! ### What an access decodes to, case by case (R61, R62, R66) -/

theorem decodeAccess_outsideWindow {a : HostAccess} (hw : a.inWindow = false) :
    decodeAccess a = .error .outsideWindow := by
  simp [decodeAccess, hw]

theorem decodeAccess_notWordWide {a : HostAccess} (hw : a.inWindow = true) (hb : a.bytes ≠ 4) :
    decodeAccess a = .error .notWordWide := by
  simp [decodeAccess, hw, HostAccess.wordWide, Config.busBytes, hb]

/-- A 32-bit access in the window is decoded by its descriptor. -/
theorem decodeAccess_wordWide {a : HostAccess} (hw : a.inWindow = true) (hb : a.bytes = 4) :
    decodeAccess a = decodeDescriptor (descriptorOf a.write a.off.toNat) a.data := by
  simp [decodeAccess, hw, HostAccess.wordWide, Config.busBytes, hb]

theorem decodeAccess_misaligned {a : HostAccess} (hw : a.inWindow = true) (hb : a.bytes = 4) (ha : a.off % 4 ≠ 0) :
    decodeAccess a = .error .misaligned := by
  have halign : BitVec.ofNat 2 a.off.toNat ≠ 0 := by
    intro h
    have hmod := congrArg BitVec.toNat h
    simp [HostAccess.inWindow] at hmod hw
    omega
  rw [decodeAccess_wordWide hw hb, decodeDescriptor, descriptorOf_align, if_pos halign]

/-- R61: the 32-bit access at offset `4k` is that of register slot `k`. -/
theorem decodeAccess_slot (wr : Bool) {k : Nat} (v : Word) (hk : k < 16) :
    decodeAccess ⟨wr, (4 * k : Nat), 4, v⟩ =
      .ok (if wr then decodeWrite (BitVec.ofNat 4 k) v else decodeRead (BitVec.ofNat 4 k)) := by
  have hw : HostAccess.inWindow ⟨wr, (4 * k : Nat), 4, v⟩ = true := by
    simp [HostAccess.inWindow]
    omega
  have halign : BitVec.ofNat 2 (4 * k) = 0 := by
    apply BitVec.eq_of_toNat_eq
    simp
  have hreg : 4 * k / 4 = k := by omega
  rw [decodeAccess_wordWide hw rfl, Int.toNat_natCast, decodeDescriptor, descriptorOf_align, descriptorOf_reg,
    descriptorOf_write, halign, hreg]
  cases wr <;> rfl

/-- R61: CORE_BASE never enters a decode. -/
@[simp] theorem windowOffset_coreBase_add (n : Nat) : windowOffset (Config.coreBase + n) = n := by
  simp [windowOffset]

/-- R95: the read rows in the order of their slots. -/
theorem decodeRead_slot {k : Nat} (hk : k < 16) :
    ([.rdCtrl, .rdDin, .rdStatus, .rdLenLo, .rdLenHi, .rdRsv5, .rdRsv6, .rdRsv7, .rdDigest 0, .rdDigest 1, .rdDigest 2,
      .rdDigest 3, .rdDigest 4, .rdDigest 5, .rdDigest 6, .rdDigest 7] : List Instr)[k]? =
      some (decodeRead (BitVec.ofNat 4 k)) := by
  interval_cases k <;> rfl

/-- R95: the write rows in the order of their slots. -/
theorem decodeWrite_slot {k : Nat} (v : Word) (hk : k < 16) :
    ([.wrCtrl v, .wrDin v, .wrStatus v, .wrLenLo v, .wrLenHi v, .wrRsv5 v, .wrRsv6 v, .wrRsv7 v, .wrDigest 0 v,
      .wrDigest 1 v, .wrDigest 2 v, .wrDigest 3 v, .wrDigest 4 v, .wrDigest 5 v, .wrDigest 6 v,
      .wrDigest 7 v] : List Instr)[k]? = some (decodeWrite (BitVec.ofNat 4 k) v) := by
  interval_cases k <;> rfl

/-! ### The host presents an access -/

/-- The host's operation presents the access `a` (R101). -/
def Presents (s : State) (a : HostAccess) : Prop :=
  (a.write = true ∧ currentOp s = .wr a.off a.bytes a.data) ∨
    (a.write = false ∧ a.data = 0 ∧ ∃ k, currentOp s = .rd a.off a.bytes k)

/-- R66: in the host's turn, an access that does not decode is refused. -/
theorem step_refused {s : State} {a : HostAccess} {r : AccessReject} (hn : nextTurn s = .host) (hp : Presents s a)
    (hr : decodeAccess a = .error r) : step s = .refused (refusalOf r) := by
  have hstep : step s = hostTurn (takeTurn s) := by rw [step, hn, takeStep]
  have haccess : performAccess a (takeTurn s) = .refused (refusalOf r) := by rw [performAccess, hr]
  obtain ⟨write, off, bytes, data⟩ := a
  rcases hp with ⟨rfl, hop⟩ | ⟨rfl, rfl, k, hop⟩
  · have hop' : currentOp (takeTurn s) = .wr off bytes data := hop
    rw [hstep, hostTurn, hop']
    exact haccess
  · have hop' : currentOp (takeTurn s) = .rd off bytes k := hop
    rw [hstep, hostTurn, hop']
    simp only [haccess, mapNext]

/-! ### Bytes and words (R12, R64) -/

/-- Four consecutive byte fields make the word field they cover. -/
theorem be32_extractLsb' {n : Nat} (x : BitVec n) (i : Nat) :
    be32 (x.extractLsb' (i + 24) 8) (x.extractLsb' (i + 16) 8) (x.extractLsb' (i + 8) 8) (x.extractLsb' i 8) =
      x.extractLsb' i 32 := by
  rw [be32,
    BitVec.extractLsb'_append_extractLsb'_eq_extractLsb' (start₁ := i + 16) (len₁ := 8) rfl,
    BitVec.extractLsb'_append_extractLsb'_eq_extractLsb' (start₁ := i + 8) (len₁ := 8) rfl,
    BitVec.extractLsb'_append_extractLsb'_eq_extractLsb' rfl]

theorem be32_toNat (b0 b1 b2 b3 : Byte) :
    (be32 b0 b1 b2 b3).toNat = b0.toNat * 2 ^ 24 + b1.toNat * 2 ^ 16 + b2.toNat * 2 ^ 8 + b3.toNat := by
  rw [be32, BitVec.toNat_append, ← Nat.shiftLeft_add_eq_or_of_lt b3.isLt, BitVec.toNat_append,
    ← Nat.shiftLeft_add_eq_or_of_lt b2.isLt, BitVec.toNat_append, ← Nat.shiftLeft_add_eq_or_of_lt b1.isLt]
  simp only [Nat.shiftLeft_eq]
  ring

@[simp] theorem blockWords_getElem (b : Block) (j : Nat) (hj : j < 16) : (blockWords b)[j] = blockWord b ⟨j, hj⟩ := by
  simp [blockWords]

/-- R67: DIN's lanes in order make DIN. -/
theorem be32_dinByte (din : Word) : be32 (dinByte din 0) (dinByte din 1) (dinByte din 2) (dinByte din 3) = din :=
  (be32_extractLsb' din 0).trans BitVec.extractLsb'_eq_self

/-- A word of a block is DIN where the block holds DIN's four lanes from place `n` on. -/
theorem blockWord_eq_din {b : Block} {j : Fin 16} {n : Nat} {din : Word} (hn : n = 4 * j.val)
    (h : ∀ k : Fin 64, n ≤ k.val → k.val < n + 4 → b[k] = dinByte din (k.val - n)) : blockWord b j = din := by
  subst hn
  have hbyte (i : Nat) (hi : i < 4) : b[4 * j.val + i] = dinByte din i := by
    simpa using h ⟨4 * j.val + i, by omega⟩ (by simp) (by simp; omega)
  calc blockWord b j = be32 (dinByte din 0) (dinByte din 1) (dinByte din 2) (dinByte din 3) := by
        rw [← hbyte 0 (by decide), ← hbyte 1 (by decide), ← hbyte 2 (by decide), ← hbyte 3 (by decide)]
        rfl
    _ = din := be32_dinByte din

/-! ### The length field (R65) -/

/-- A block whose last eight bytes are `be64(len)` has the two halves of `len` as words 14 and 15. -/
theorem blockWord_lengthField {b : Block} {len : Length}
    (h : ∀ k : Fin 64, 56 ≤ k.val → b[k] = be64Byte len (k.val - 56)) :
    blockWord b 14 = len.extractLsb' 32 32 ∧ blockWord b 15 = len.extractLsb' 0 32 := by
  have hbyte (n : Nat) (hn : n < 8) : b[56 + n] = be64Byte len n := by
    simpa using h ⟨56 + n, by omega⟩ (by simp)
  constructor
  · calc blockWord b 14 = be32 (be64Byte len 0) (be64Byte len 1) (be64Byte len 2) (be64Byte len 3) := by
          rw [← hbyte 0 (by decide), ← hbyte 1 (by decide), ← hbyte 2 (by decide), ← hbyte 3 (by decide)]
          rfl
      _ = len.extractLsb' 32 32 := be32_extractLsb' len 32
  · calc blockWord b 15 = be32 (be64Byte len 4) (be64Byte len 5) (be64Byte len 6) (be64Byte len 7) := by
          rw [← hbyte 4 (by decide), ← hbyte 5 (by decide), ← hbyte 6 (by decide), ← hbyte 7 (by decide)]
          rfl
      _ = len.extractLsb' 0 32 := be32_extractLsb' len 0

/-- R156: with room for the length, the last eight bytes are it. -/
theorem paddedByte_lengthField {c : CoreState} (hc : c.bcnt.val ≤ 55) {k : Fin 64} (hk : 56 ≤ k.val) :
    paddedByte c k = be64Byte c.len (k.val - 56) := by
  have hlt : ¬ k.val < c.bcnt.val := by omega
  have hne : k ≠ c.bcnt := by
    rintro rfl
    omega
  simp [paddedByte, hlt, hne, hc, hk]

/-- R157: the second padding block, byte by byte. -/
theorem padBlock2_getElem (len : Length) (k : Nat) (hk : k < 64) :
    (padBlock2 len)[k] = if k < 56 then 0 else be64Byte len (k - 56) := by
  simp [padBlock2]

theorem blockWord_padBlock2_zero (len : Length) {j : Fin 16} (hj : j.val < 14) : blockWord (padBlock2 len) j = 0 := by
  have hbyte (n : Nat) (hn : n < 56) : (padBlock2 len)[n] = 0 := by
    rw [padBlock2_getElem, if_pos hn]
  rw [blockWord, hbyte _ (by omega), hbyte _ (by omega), hbyte _ (by omega), hbyte _ (by omega)]
  rfl

/-! ### A word pushed at an aligned place (R67) -/

/-- R231: an accepted PUSH is its PushBytes. -/
theorem performCommand_push {nb : Nat} {c : CoreState} (hb : c.busy = false) (he : errAny c = false)
    (hd : c.done = false) (hl : lengthFits nb c = true) : performCommand (.push nb) c = pushBytes nb c := by
  simp [performCommand, pushCommand, checkedCommand, hb, he, hd, hl]

theorem commandOf_of_mem_pushRows {i : Instr} {nb : Nat} (h : (i, nb) ∈ pushRows) : commandOf i = some (.push nb) := by
  have hrows : ∀ row ∈ pushRows, commandOf row.1 = some (.push row.2) := by decide
  exact hrows _ h

/-- The four bytes fit in the buffer, where they are its word `BCNT / 4`; the one place where they fill it is `BCNT = 60`. -/
theorem pushBytes_four_aligned (c : CoreState) (ha : c.bcnt.val % 4 = 0) :
    (∀ j : Fin 16, j.val = c.bcnt.val / 4 → blockWord (pushBytes 4 c).buf j = c.din) ∧
      (c.bcnt.val = 60 → (pushBytes 4 c).w[15] = c.din) := by
  have hplace (j : Fin 16) (hj : j.val = c.bcnt.val / 4) : c.bcnt.val = 4 * j.val := by omega
  by_cases hfill : c.bcnt.val = 60
  · obtain ⟨b, buf, e, hb, hbuf⟩ := pushBytes_fill 4 c (by omega) (by omega)
    have hsame : buf = b := Vector.ext fun k hk => (hbuf ⟨k, hk⟩).trans (if_neg (by simp [hfill]))
    have hword (j : Fin 16) (hj : j.val = c.bcnt.val / 4) : blockWord b j = c.din :=
      blockWord_eq_din (hplace j hj) fun k h1 _ => (hb k).trans (if_neg (by omega))
    rw [e, hsame]
    exact ⟨hword, fun _ => (blockWords_getElem b 15 (by decide)).trans (hword 15 (by rw [hfill]; rfl))⟩
  · obtain ⟨buf, e, hbuf⟩ := pushBytes_room 4 c (by omega)
    rw [e]
    exact ⟨fun j hj => blockWord_eq_din (hplace j hj) fun k h1 h2 => (hbuf k).trans (if_pos ⟨h1, h2⟩),
      fun h => absurd h hfill⟩

/-! ### The obligations -/

/-- Settles O6: the slot of the offset selects the row, for reads and for writes. -/
theorem addressSelectsTheRegister : Obligations.AddressSelectsTheRegister := fun k v hk => by
  constructor
  · intro i hi
    rw [decodeRead_slot hk] at hi
    cases hi
    rw [HostAccess.memRead, windowOffset_coreBase_add, decodeAccess_slot false 0 hk]
    rfl
  · intro i hi
    rw [decodeWrite_slot v hk] at hi
    cases hi
    rw [HostAccess.memWrite, windowOffset_coreBase_add, decodeAccess_slot true v hk]
    rfl

/-- Settles O34: the value of `be32` in base 256. -/
theorem blockWordsAreBigEndian : Obligations.BlockWordsAreBigEndian := fun b j hj => by
  rw [blockWords_getElem, blockWord, be32_toNat]

/-- Settles O35: both blocks end with `be64(LEN)`. -/
theorem lengthFieldIsTheLastTwoWords : Obligations.LengthFieldIsTheLastTwoWords := by
  refine ⟨fun c hc => ?_, fun len => ⟨fun j hj => ?_, ?_⟩⟩
  · simp only [padFinal_w, blockWords_getElem]
    exact blockWord_lengthField fun k hk => (ofFn_getElem_fin _ k).trans (paddedByte_lengthField hc hk)
  · rw [blockWords_getElem]
    exact blockWord_padBlock2_zero len hj
  · simp only [blockWords_getElem]
    exact blockWord_lengthField fun k hk => (padBlock2_getElem len k.val k.isLt).trans (if_neg (by omega))

/-- Settles O36: an accepted PUSH 4 is `PushBytes(4)`, which places DIN's lanes. -/
theorem pushedWordIsTheScheduleWord : Obligations.PushedWordIsTheScheduleWord := by
  refine ⟨be32_dinByte, fun s i hi hb he hd hl ha => ⟨_, exec_command (commandOf_of_mem_pushRows hi) s, ?_⟩⟩
  have hfits : lengthFits 4 s.core = true := decide_eq_true hl
  rw [performCommand_push hb he hd hfits]
  exact pushBytes_four_aligned s.core ha

/-- Settles O9: each kind of access outside the interface is rejected by the decoder under its name. -/
theorem stepRefusesAnAccessOutsideTheInterface : Obligations.StepRefusesAnAccessOutsideTheInterface :=
  fun _ _ hn hp =>
    ⟨fun hw => step_refused hn hp (decodeAccess_outsideWindow hw),
      fun hw hb => step_refused hn hp (decodeAccess_notWordWide hw hb),
      fun hw hb ha => step_refused hn hp (decodeAccess_misaligned hw hb ha)⟩

end Sys2Proof.Machine
end

-- The statements of spec/30_encoding.md: what the decoder and the encoder say of each other, and how the host's turn
-- performs what it decodes.
section

namespace Sys2Proof.Machine

/-! ### Command words (R92, R94, R96) -/

/-- R92, R96: a word is legal exactly if its reserved bits are 0 and its NB is one that its OP takes. -/
theorem decodeCommand_ne_illegal_iff (v : Word) :
    decodeCommand v ≠ .illegal ↔
      v.extractLsb' 4 4 = 0 ∧ v.extractLsb' 11 21 = 0 ∧
        (((v.extractLsb' 0 4).toNat ∈ [0, 1, 3] ∧ (v.extractLsb' 8 3).toNat = 0) ∨
          ((v.extractLsb' 0 4).toNat = 2 ∧ 1 ≤ (v.extractLsb' 8 3).toNat ∧ (v.extractLsb' 8 3).toNat ≤ 4)) := by
  unfold decodeCommand
  generalize (v.extractLsb' 0 4).toNat = op, (v.extractLsb' 8 3).toNat = nb
  by_cases hres : v.extractLsb' 4 4 ≠ 0 ∨ v.extractLsb' 11 21 ≠ 0
  · rw [if_pos hres]
    tauto
  · rw [if_neg hres]
    have hzero : v.extractLsb' 4 4 = 0 ∧ v.extractLsb' 11 21 = 0 := by tauto
    split
    case h_1 | h_2 | h_4 => simp [hzero]
    case h_3 => split <;> simp_all
    case h_5 h0 h1 h2 h3 =>
      refine iff_of_false (not_not.mpr rfl) ?_
      rintro ⟨-, -, ⟨hop, hnb⟩ | ⟨hop, -, -⟩⟩
      · simp only [List.mem_cons, List.not_mem_nil, or_false] at hop
        exact hop.elim (h1 · hnb) (·.elim (h2 · hnb) (h3 · hnb))
      · exact h0 hop

/-- R92: a word whose reserved bits are 0 is its NB above its OP. -/
theorem word_eq_of_reserved_zero {v : Word} (h1 : v.extractLsb' 4 4 = 0) (h2 : v.extractLsb' 11 21 = 0) :
    v = BitVec.ofNat 32 (256 * (v.extractLsb' 8 3).toNat + (v.extractLsb' 0 4).toNat) := by
  have e1 := congrArg BitVec.toNat h1
  have e2 := congrArg BitVec.toNat h2
  apply BitVec.eq_of_toNat_eq
  simp [Nat.shiftRight_eq_div_pow] at e1 e2 ⊢
  omega

/-- The command words of the table of R94. -/
def commandWords : List Word :=
  [0x00000000, 0x00000001, 0x00000102, 0x00000202, 0x00000302, 0x00000402, 0x00000003]

/-- R94: these words are the legal ones. -/
theorem decodeCommand_ne_illegal_iff_mem (v : Word) : decodeCommand v ≠ .illegal ↔ v ∈ commandWords := by
  constructor
  · intro h
    obtain ⟨h1, h2, hfields⟩ := (decodeCommand_ne_illegal_iff v).mp h
    rw [word_eq_of_reserved_zero h1 h2]
    generalize (v.extractLsb' 0 4).toNat = op, (v.extractLsb' 8 3).toNat = nb at hfields
    rcases hfields with ⟨hop, rfl⟩ | ⟨rfl, hlo, hhi⟩
    · fin_cases hop <;> decide
    · interval_cases nb <;> decide
  · intro h
    fin_cases h <;> decide

/-- R94: the row of a command issues that command. -/
theorem commandOf_toInstr {cmd : Command} {i : Instr} (h : cmd.toInstr = some i) : commandOf i = some cmd := by
  unfold Command.toInstr at h
  split at h <;> cases h <;> rfl

theorem toInstr_illegal_ne {cmd : Command} {i : Instr} (h : cmd.toInstr = some i) : cmd ≠ .illegal := by
  rintro rfl
  cases h

/-- R94, R98: the row of a legal word encodes as that word. -/
theorem encode_toInstr {v : Word} {i : Instr} (h : (decodeCommand v).toInstr = some i) : encode i = .command v := by
  have hmem : v ∈ commandWords := (decodeCommand_ne_illegal_iff_mem v).mp (toInstr_illegal_ne h)
  fin_cases hmem <;> cases h <;> rfl

/-- R231: a CTRL write of a legal word does what the word's row does. -/
theorem exec_wrCtrl_eq {v : Word} {i : Instr} (h : (decodeCommand v).toInstr = some i) (s : State) :
    exec (.wrCtrl v) s = exec i s := by
  rw [exec_command (i := .wrCtrl v) rfl, exec_command (commandOf_toInstr h)]

/-! ### Bus descriptors (R91, R95) -/

/-- R91: a descriptor decodes exactly if its ALIGN is 00, to the row its WR and REG select. -/
theorem decodeDescriptor_eq_ok_iff {desc : BitVec 7} {data : Word} {i : Instr} :
    decodeDescriptor desc data = .ok i ↔
      desc.extractLsb' 0 2 = 0 ∧
        i = if desc.getLsbD 6 then decodeWrite (desc.extractLsb' 2 4) data else decodeRead (desc.extractLsb' 2 4) := by
  unfold decodeDescriptor
  by_cases ha : desc.extractLsb' 0 2 = 0
  · rw [if_neg (not_not.mpr ha)]
    cases desc.getLsbD 6 <;> simp only [ha, true_and, Except.ok.injEq, eq_comm, if_true, Bool.false_eq_true, if_false]
  · simp only [if_pos ha, ha, false_and, reduceCtorEq]

/-- R91: a descriptor whose ALIGN is 00 is the one of its WR and its register's offset. -/
theorem descriptorOf_fields {desc : BitVec 7} (ha : desc.extractLsb' 0 2 = 0) :
    descriptorOf (desc.getLsbD 6) (4 * (desc.extractLsb' 2 4).toNat) = desc := by
  revert desc
  decide

/-- R95: the descriptor of a read row; it carries no DATA. -/
theorem encode_decodeRead (reg : BitVec 4) : encode (decodeRead reg) = .bus (descriptorOf false (4 * reg.toNat)) 0 := by
  revert reg
  decide

/-- R95: the descriptor and the DATA of a write row. -/
theorem encode_decodeWrite (reg : BitVec 4) (v : Word) :
    encode (decodeWrite reg v) = .bus (descriptorOf true (4 * reg.toNat)) v := by
  have hk := reg.isLt
  unfold decodeWrite
  generalize reg.toNat = k at hk
  interval_cases k <;> rfl

/-- R98: the row of a descriptor encodes as it, a read without DATA. -/
theorem encode_of_decodeDescriptor {desc : BitVec 7} {data : Word} {i : Instr}
    (h : decodeDescriptor desc data = .ok i) : encode i = .bus desc (if desc.getLsbD 6 then data else 0) := by
  obtain ⟨ha, rfl⟩ := decodeDescriptor_eq_ok_iff.mp h
  have hdesc := descriptorOf_fields ha
  cases hw : desc.getLsbD 6 <;> rw [hw] at hdesc
  · exact (encode_decodeRead _).trans (by rw [hdesc]; rfl)
  · exact (encode_decodeWrite _ data).trans (by rw [hdesc]; rfl)

/-! ### Both kinds of input (R90) -/

theorem decode_command_eq_ok_iff {v : Word} {i : Instr} :
    decode (.command v) = .ok i ↔ (decodeCommand v).toInstr = some i := by
  rw [decode]
  cases (decodeCommand v).toInstr <;> simp

theorem decode_bus_eq_ok_iff {desc : BitVec 7} {data : Word} {i : Instr} :
    decode (.bus desc data) = .ok i ↔ decodeDescriptor desc data = .ok i := by
  rw [decode]
  cases decodeDescriptor desc data <;> simp

/-! ### The host's turn (R101) -/

/-- R220: every access is performed. -/
theorem exec_next (i : Instr) (s : State) : ∃ t, exec i s = .next t := by
  rcases exec_cases i s with ⟨_, h⟩ | ⟨_, h⟩ | ⟨_, _, h⟩ | ⟨_, h⟩ <;> exact ⟨_, h⟩

theorem currentOp_takeTurn (s : State) : currentOp (takeTurn s) = currentOp s := rfl

theorem step_of_host {s : State} (hn : nextTurn s = .host) : step s = hostTurn (takeTurn s) := by
  rw [step, hn, takeStep]

/-- R101: a write that decodes is performed as the host moves past it. -/
theorem step_wr {s : State} {off : Int} {bytes : Nat} {v : Word} {i : Instr} (hn : nextTurn s = .host)
    (hop : currentOp s = .wr off bytes v) (hd : decodeAccess ⟨true, off, bytes, v⟩ = .ok i) :
    step s = exec i (hostAdvance (takeTurn s)) := by
  rw [step_of_host hn, hostTurn, currentOp_takeTurn, hop]
  simp only [performAccess, hd]

/-- R101: a read that decodes is performed likewise, and its word delivered. -/
theorem step_rd {s : State} {off : Int} {bytes : Nat} {k : Fin 16} {i : Instr} (hn : nextTurn s = .host)
    (hop : currentOp s = .rd off bytes k) (hd : decodeAccess ⟨false, off, bytes, 0⟩ = .ok i) :
    ∃ u t, exec i (hostAdvance (takeTurn s)) = .next u ∧ step s = .next t ∧ Delivered k u t := by
  obtain ⟨u, hu⟩ := exec_next i (hostAdvance (takeTurn s))
  refine ⟨u, deliver k u, hu, ?_, deliver_delivered k u⟩
  rw [step_of_host hn, hostTurn, currentOp_takeTurn, hop]
  simp only [performAccess, hd, hu, mapNext]

/-- R101: a branch changes the host's position and nothing else. -/
theorem hostBranch_eq (taken : Bool) (label : Nat) (s : State) :
    hostBranch taken label s = { s with host := { s.host with pc := if taken then label else s.host.pc + 1 } } := by
  cases taken <;> rfl

/-- The same where the bit must be 0 (BBC). -/
theorem hostBranch_not_eq (bit : Bool) (label : Nat) (s : State) :
    hostBranch (!bit) label s = { s with host := { s.host with pc := if bit then s.host.pc + 1 else label } } := by
  cases bit <;> rfl

/-! ### A placed table word (log 8, log 11) -/

theorem decodeTableWord_command {w : Nat} {i : Instr} (h : decodeTableWord 32 w = some i) :
    (decodeCommand (BitVec.ofNat 32 w)).toInstr = some i := by
  simp only [decodeTableWord, if_true, Option.map_some] at h
  split at h
  next j hj =>
    cases h
    exact decode_command_eq_ok_iff.mp (Option.some.inj hj)
  next => cases h

theorem decodeTableWord_descriptor {nbits w : Nat} {i : Instr} (hb : nbits ≠ 32)
    (h : decodeTableWord nbits w = some i) :
    w.testBit 7 = false ∧ decodeDescriptor (BitVec.ofNat 7 w) (BitVec.ofNat 32 (w / 256)) = .ok i := by
  cases h7 : w.testBit 7
  · simp only [decodeTableWord, if_neg hb, h7] at h
    split at h
    next j hj =>
      cases h
      exact ⟨rfl, decode_bus_eq_ok_iff.mp (Option.some.inj hj)⟩
    next => cases h
  · simp [decodeTableWord, hb, h7] at h

/-- R91: the low seven bits of a table word are the descriptor of its WR and its offset. -/
theorem descriptorOf_tableWord (w : Nat) : descriptorOf (w.testBit 6) (w % 64) = BitVec.ofNat 7 w := by
  apply BitVec.eq_of_toNat_eq
  rw [Nat.testBit_eq_decide_div_mod_eq]
  by_cases h : w / 64 % 2 = 1
  · simp [descriptorOf, h]
    omega
  · simp [descriptorOf, h]
    omega

/-- The state in which a placed word's access is performed. -/
def placedState (s : State) (nbits w : Nat) : State := hostAdvance (takeTurn (s.withFetchWord nbits w))

theorem nextTurn_withFetchWord (s : State) (nbits w : Nat) : nextTurn (s.withFetchWord nbits w) = .host := rfl

theorem currentOp_withFetchWord (s : State) (nbits w : Nat) : currentOp (s.withFetchWord nbits w) = tableOp nbits w :=
  (placeOp_prog (tableOp nbits w) s s.host.pc).trans (if_pos rfl)

theorem writeData_of_mem_readRows {i : Instr} (h : i ∈ readRows) : i.writeData = none := by
  have hrows : ∀ j ∈ readRows, j.writeData = none := by decide
  exact hrows i h

theorem commandOf_of_mem_readRows {i : Instr} (h : i ∈ readRows) : commandOf i = none := by
  have hrows : ∀ j ∈ readRows, commandOf j = none := by decide
  exact hrows i h

theorem decodeRead_mem_readRows (reg : BitVec 4) : decodeRead reg ∈ readRows := by
  revert reg
  decide

theorem decodeWrite_not_mem_readRows (reg : BitVec 4) (v : Word) : decodeWrite reg v ∉ readRows := by
  intro h
  have hnone := writeData_of_mem_readRows h
  unfold decodeWrite at hnone
  split at hnone <;> cases hnone

/-- The operation of a placed command word runs the word's row, which is no read. -/
theorem step_placed_command {s : State} {w : Nat} {i : Instr} (h : decodeTableWord 32 w = some i) :
    i ∉ readRows ∧ step (s.withFetchWord 32 w) = exec i (placedState s 32 w) := by
  have hcmd := decodeTableWord_command h
  refine ⟨fun hmem => ?_, ?_⟩
  · have hnone := commandOf_of_mem_readRows hmem
    rw [commandOf_toInstr hcmd] at hnone
    cases hnone
  · have hstep := step_wr (nextTurn_withFetchWord s 32 w) (currentOp_withFetchWord s 32 w)
      (decodeAccess_slot true (k := 0) (BitVec.ofNat 32 w) (by decide))
    exact hstep.trans (exec_wrCtrl_eq hcmd _)

/-- The operation of a placed descriptor presents an access that decodes as the descriptor does. -/
theorem decodeAccess_tableWord (w : Nat) (v : Word) :
    decodeAccess ⟨w.testBit 6, (w % 64 : Nat), 4, v⟩ = decodeDescriptor (BitVec.ofNat 7 w) v := by
  have hw : HostAccess.inWindow ⟨w.testBit 6, (w % 64 : Nat), 4, v⟩ = true := by
    simp only [HostAccess.inWindow, Bool.and_eq_true, decide_eq_true_eq]
    omega
  rw [decodeAccess_wordWide hw rfl, Int.toNat_natCast, descriptorOf_tableWord]

theorem tableOp_descriptor {nbits w : Nat} (hb : nbits ≠ 32) (h7 : w.testBit 7 = false) :
    tableOp nbits w =
      if w.testBit 6 then .wr (w % 64 : Nat) 4 (BitVec.ofNat 32 (w / 256)) else .rd (w % 64 : Nat) 4 0 := by
  simp only [tableOp, if_neg hb, h7, Bool.false_eq_true, if_false, Nat.add_zero]
  rfl

/-- WR of a table word is its bit 6. -/
theorem getLsbD_tableWord_write (w : Nat) : (BitVec.ofNat 7 w).getLsbD 6 = w.testBit 6 := by
  rw [BitVec.getLsbD_ofNat]
  rfl

/-- A placed write descriptor runs its row, which is no read. -/
theorem step_placed_write {s : State} {nbits w : Nat} {i : Instr} (hb : nbits ≠ 32) (h6 : w.testBit 6 = true)
    (h : decodeTableWord nbits w = some i) :
    i ∉ readRows ∧ step (s.withFetchWord nbits w) = exec i (placedState s nbits w) := by
  obtain ⟨h7, hd⟩ := decodeTableWord_descriptor hb h
  have hop := (currentOp_withFetchWord s nbits w).trans (tableOp_descriptor hb h7)
  have haccess := (decodeAccess_tableWord w (BitVec.ofNat 32 (w / 256))).trans hd
  rw [h6] at haccess
  rw [if_pos h6] at hop
  refine ⟨?_, step_wr (nextTurn_withFetchWord s nbits w) hop haccess⟩
  obtain ⟨-, rfl⟩ := decodeDescriptor_eq_ok_iff.mp hd
  rw [getLsbD_tableWord_write, if_pos h6]
  exact decodeWrite_not_mem_readRows _ _

/-- A read row decodes whatever DATA stands beside its descriptor. -/
theorem decodeDescriptor_read {desc : BitVec 7} {data : Word} {i : Instr} (h6 : desc.getLsbD 6 = false)
    (h : decodeDescriptor desc data = .ok i) : i ∈ readRows ∧ ∀ x, decodeDescriptor desc x = .ok i := by
  obtain ⟨ha, hi⟩ := decodeDescriptor_eq_ok_iff.mp h
  rw [if_neg (ne_true_of_eq_false h6)] at hi
  exact ⟨hi ▸ decodeRead_mem_readRows _,
    fun x => decodeDescriptor_eq_ok_iff.mpr ⟨ha, by rw [if_neg (ne_true_of_eq_false h6), hi]⟩⟩

/-- A placed read descriptor runs its row, a read, and delivers its word to `r0`. -/
theorem step_placed_read {s : State} {nbits w : Nat} {i : Instr} (hb : nbits ≠ 32) (h6 : w.testBit 6 = false)
    (h : decodeTableWord nbits w = some i) :
    i ∈ readRows ∧
      ∃ u t, exec i (placedState s nbits w) = .next u ∧ step (s.withFetchWord nbits w) = .next t ∧ Delivered 0 u t := by
  obtain ⟨h7, hd⟩ := decodeTableWord_descriptor hb h
  obtain ⟨hmem, hread⟩ := decodeDescriptor_read ((getLsbD_tableWord_write w).trans h6) hd
  have hop := (currentOp_withFetchWord s nbits w).trans (tableOp_descriptor hb h7)
  have haccess := (decodeAccess_tableWord w 0).trans (hread 0)
  rw [h6] at haccess
  rw [if_neg (ne_true_of_eq_false h6)] at hop
  exact ⟨hmem, step_rd (nextTurn_withFetchWord s nbits w) hop haccess⟩

/-! ### The obligations -/

/-- Settles O3: the encoder's tables, for the legal words and for the descriptors of the 16 slots. -/
theorem encodeOfDecodeIsTheInput : Obligations.EncodeOfDecodeIsTheInput := fun x i h => by
  cases x with
  | command v => exact encode_toInstr (decode_command_eq_ok_iff.mp h)
  | bus desc data => exact encode_of_decodeDescriptor (decode_bus_eq_ok_iff.mp h)

/-- Settles O4: the words with legal fields are those of the table; each row is one word's decode. -/
theorem sevenCommandWordsAreLegal : Obligations.SevenCommandWordsAreLegal :=
  ⟨decodeCommand_ne_illegal_iff_mem, by decide⟩

/-- Settles O5: the negation of a legal word's fields, class by class. -/
theorem illegalWordsAreTheThreeClasses : Obligations.IllegalWordsAreTheThreeClasses := fun v => by
  rw [← not_iff_not, ← ne_eq, decodeCommand_ne_illegal_iff]
  generalize (v.extractLsb' 0 4).toNat = op, (v.extractLsb' 8 3).toNat = nb
  simp only [not_or, ne_eq, not_not, and_assoc]
  refine and_congr_right fun _ => and_congr_right fun _ => ?_
  simp only [List.mem_cons, List.not_mem_nil, or_false]
  omega

/-- Settles O10: a command word is placed as a CTRL write, a descriptor as the access it describes. -/
theorem placedWordIsTheNextInstruction : Obligations.PlacedWordIsTheNextInstruction := fun s nbits w i _ _ h => by
  refine ⟨placedState s nbits w, rfl, rfl, rfl, rfl, rfl,
    fun n hn => (placeOp_prog (tableOp nbits w) s n).trans (if_neg hn), ?_⟩
  by_cases hb : nbits = 32
  · subst hb
    obtain ⟨hmem, hstep⟩ := step_placed_command (s := s) h
    exact ⟨fun hi => absurd hi hmem, fun _ => hstep⟩
  · cases h6 : w.testBit 6 with
    | true =>
      obtain ⟨hmem, hstep⟩ := step_placed_write (s := s) hb h6 h
      exact ⟨fun hi => absurd hi hmem, fun _ => hstep⟩
    | false =>
      obtain ⟨hmem, hread⟩ := step_placed_read (s := s) hb h6 h
      exact ⟨fun _ => hread, fun hi => absurd hmem hi⟩

/-- Settles O1: the ten words are fixed, and the decoder evaluates on each. -/
theorem tableWordsDecodeToTheirRows : Obligations.TableWordsDecodeToTheirRows := by
  unfold Obligations.TableWordsDecodeToTheirRows
  decide

/-- Settles O7: the host's turn on a write, and on a read. -/
theorem stepPerformsTheDecodedAccess : Obligations.StepPerformsTheDecodedAccess :=
  fun _ _ hn => ⟨fun _ _ _ => step_wr hn, fun _ _ _ => step_rd hn⟩

/-- Settles O11: the host's turn on a branch taken or not, and on HALT. -/
theorem hostBranchesOnABit : Obligations.HostBranchesOnABit := fun s hn => by
  refine ⟨fun k bit label hop => ?_, fun k bit label hop => ?_, fun hop => ?_⟩
  · rw [step_of_host hn, hostTurn, currentOp_takeTurn, hop]
    exact congrArg _ (hostBranch_eq ..)
  · rw [step_of_host hn, hostTurn, currentOp_takeTurn, hop]
    exact congrArg _ (hostBranch_not_eq ..)
  · rw [step_of_host hn, hostTurn, currentOp_takeTurn, hop]

end Sys2Proof.Machine
end

-- The statements of spec/40_datapath_functions.md: what the adder and the bitwise units compute, bit by bit.
section

namespace Sys2Proof

/-! ### The rotate and shift units (R121, R122) -/

theorem rotr_eq_rotateRight (x : Word) (n : Nat) : rotr x n = x.rotateRight n := rfl

/-- R121: the low bits come from `n` places up, and the high ones wrap around. -/
theorem getLsbD_rotr (x : Word) (n : Nat) {i : Nat} (hi : i < 32) :
    (rotr x n).getLsbD i = x.getLsbD ((i + n) % 32) := by
  rw [rotr_eq_rotateRight, BitVec.getLsbD_rotateRight, Bool.cond_decide]
  by_cases hlow : i < 32 - n % 32
  · rw [if_pos hlow, show n % 32 + i = (i + n) % 32 by omega]
  · rw [if_neg hlow, decide_eq_true hi, Bool.true_and, show i - (32 - n % 32) = (i + n) % 32 by omega]

/-- R122: a place above bit 31 holds no bit of `x`, and reads 0. -/
theorem getLsbD_shr (x : Word) (n i : Nat) :
    (shr x n).getLsbD i = if i + n ≤ 31 then x.getLsbD (i + n) else false := by
  rw [shr, BitVec.getLsbD_ushiftRight, Nat.add_comm]
  split
  case isTrue => rfl
  case isFalse hout => exact BitVec.getLsbD_of_ge x _ (by omega)

/-! ### Linearity over GF(2) (R131) -/

/-- R131's first equation. Its second follows (`Gf2Linear.map_zero`). -/
def Gf2Linear (f : Word → Word) : Prop := ∀ x y, f (x ^^^ y) = f x ^^^ f y

theorem gf2Linear_rotr (n : Nat) : Gf2Linear (rotr · n) := fun x y =>
  BitVec.eq_of_getLsbD_eq fun i hi => by simp only [BitVec.getLsbD_xor, getLsbD_rotr _ _ hi]

theorem gf2Linear_shr (n : Nat) : Gf2Linear (shr · n) := fun x y => BitVec.ushiftRight_xor_distrib x y n

namespace Gf2Linear

variable {f g : Word → Word}

theorem xor (hf : Gf2Linear f) (hg : Gf2Linear g) : Gf2Linear (fun x => f x ^^^ g x) := fun x y =>
  calc f (x ^^^ y) ^^^ g (x ^^^ y) = (f x ^^^ f y) ^^^ (g x ^^^ g y) := by rw [hf, hg]
    _ = (f x ^^^ g x) ^^^ (f y ^^^ g y) := by ac_rfl

theorem map_zero (hf : Gf2Linear f) : f 0 = 0 :=
  calc f 0 = f (0 ^^^ 0) := by rw [BitVec.xor_self]; rfl
    _ = f 0 ^^^ f 0 := hf 0 0
    _ = 0 := BitVec.xor_self

end Gf2Linear

theorem gf2Linear_sigma0 : Gf2Linear sigma0 := ((gf2Linear_rotr 2).xor (gf2Linear_rotr 13)).xor (gf2Linear_rotr 22)

theorem gf2Linear_sigma1 : Gf2Linear sigma1 := ((gf2Linear_rotr 6).xor (gf2Linear_rotr 11)).xor (gf2Linear_rotr 25)

theorem gf2Linear_phi0 : Gf2Linear phi0 := ((gf2Linear_rotr 7).xor (gf2Linear_rotr 18)).xor (gf2Linear_shr 3)

theorem gf2Linear_phi1 : Gf2Linear phi1 := ((gf2Linear_rotr 17).xor (gf2Linear_rotr 19)).xor (gf2Linear_shr 10)

/-! ### Choice and majority (R124, R125) -/

/-- R124: `x` selects, for one of the two terms is always 0. -/
theorem getLsbD_choice (x y z : Word) {i : Nat} (hi : i < 32) :
    (choice x y z).getLsbD i = if x.getLsbD i then y.getLsbD i else z.getLsbD i := by
  simp only [choice, BitVec.getLsbD_xor, BitVec.getLsbD_and, BitVec.getLsbD_not, decide_eq_true hi, Bool.true_and]
  cases x.getLsbD i <;> simp

/-- R125 on one bit of each operand. -/
theorem xor_pairs_iff_two_le (a b c : Bool) :
    (a && b ^^ a && c ^^ b && c) = true ↔ 2 ≤ a.toNat + b.toNat + c.toNat := by
  revert a b c
  decide

theorem getLsbD_majority (x y z : Word) (i : Nat) :
    (majority x y z).getLsbD i = true ↔ 2 ≤ (x.getLsbD i).toNat + (y.getLsbD i).toNat + (z.getLsbD i).toNat := by
  simp only [majority, BitVec.getLsbD_xor, BitVec.getLsbD_and]
  exact xor_pairs_iff_two_le _ _ _

/-! ### The obligations -/

/-- Settles O44: the bits of a rotation and of a shift. -/
theorem rotateAndShiftMoveBits : Obligations.RotateAndShiftMoveBits := fun x n i hi =>
  ⟨getLsbD_rotr x n hi, getLsbD_shr x n i⟩

/-- Settles O46: the bits of each rotation and shift, and linearity, which an exclusive or of linear functions has. -/
theorem mixingFunctionsAreLinear : Obligations.MixingFunctionsAreLinear := by
  refine ⟨fun x i hi => ?_, fun x y => ?_, gf2Linear_sigma0.map_zero, gf2Linear_sigma1.map_zero,
    gf2Linear_phi0.map_zero, gf2Linear_phi1.map_zero⟩
  · simp only [sigma0, sigma1, phi0, phi1, BitVec.getLsbD_xor, getLsbD_rotr x _ hi, getLsbD_shr, and_self]
  · exact ⟨gf2Linear_sigma0 x y, gf2Linear_sigma1 x y, gf2Linear_phi0 x y, gf2Linear_phi1 x y⟩

/-- Settles O43: it is the addition of 32-bit words. -/
theorem adderIsModular : Obligations.AdderIsModular := BitVec.toNat_add

/-- Settles O45: the bits of each. -/
theorem choiceAndMajorityByBits : Obligations.ChoiceAndMajorityByBits := fun x y z i hi =>
  ⟨getLsbD_choice x y z hi, getLsbD_majority x y z i⟩

end Sys2Proof
end

-- The statements of spec/41_padder.md: what PUSH and FINISH do to the buffer, what `pad` is, and that the blocks LOADed
-- for a message are those of its padding.
section

namespace Sys2Proof.Machine

/-! ### Accepted and dropped commands (R231) -/

/-- R235: an accepted FINISH is its PadFinal. -/
theorem performCommand_finish {c : CoreState} (hb : c.busy = false) (he : errAny c = false) (hd : c.done = false) :
    performCommand .finish c = padFinal c := by
  simp [performCommand, finishCommand, checkedCommand, hb, he, hd]

theorem commandOf_of_mem_finishRows {i : Instr} (h : i ∈ finishRows) : commandOf i = some .finish := by
  have hrows : ∀ row ∈ finishRows, commandOf row = some .finish := by decide
  exact hrows _ h

theorem accepted_push_iff {nb : Nat} {c : CoreState} :
    accepted (.push nb) c = true ↔ c.busy = false ∧ errAny c = false ∧ c.done = false ∧ lengthFits nb c = true := by
  simp [accepted, and_assoc]

theorem accepted_finish_iff {c : CoreState} :
    accepted .finish c = true ↔ c.busy = false ∧ errAny c = false ∧ c.done = false := by
  simp [accepted, and_assoc]

/-- R231: a command that is neither INIT nor accepted at most raises a flag. -/
theorem performCommand_dropped {cmd : Command} {c : CoreState} (hi : cmd ≠ .init) (ha : accepted cmd c = false) :
    performCommand cmd c = c ∨ ∃ e, performCommand cmd c = raiseError e c := by
  rcases performCommand_cases cmd c with
    h | h | ⟨rfl, -⟩ | ⟨nb, rfl, hb, he, hd, hl, -⟩ | ⟨rfl, hb, he, hd, -⟩
  · exact .inl h
  · exact .inr h
  · exact absurd rfl hi
  · exact absurd (accepted_push_iff.mpr ⟨hb, he, hd, hl⟩) (by simp [ha])
  · exact absurd (accepted_finish_iff.mpr ⟨hb, he, hd⟩) (by simp [ha])

/-- R18: an access that is neither INIT nor an accepted command at most writes DIN or raises a flag. -/
theorem exec_dropped {i : Instr} {s t : State} (hi : commandOf i ≠ some .init)
    (ha : ∀ cmd, commandOf i = some cmd → accepted cmd s.core = false) (hx : exec i s = .next t) :
    t.core = s.core ∨ (∃ x, t.core = writeDin x s.core) ∨ ∃ e, t.core = raiseError e s.core := by
  rcases exec_core hx with h | ⟨x, -, h⟩ | ⟨cmd, hc, h⟩
  · exact .inl h
  · exact .inr (.inl ⟨x, h⟩)
  · have hne : cmd ≠ .init := by
      rintro rfl
      exact hi hc
    rcases performCommand_dropped hne (ha cmd hc) with h' | ⟨e, h'⟩
    · exact .inl (h.trans h')
    · exact .inr (.inr ⟨e, h.trans h'⟩)

/-- What a performed command leaves in CORE. -/
theorem exec_command_core {i : Instr} {cmd : Command} {s t : State} (hc : commandOf i = some cmd)
    (hx : exec i s = .next t) : t.core = performCommand cmd s.core := by
  rw [exec_command hc] at hx
  cases hx
  rfl

end Sys2Proof.Machine

namespace Sys2Proof

/-! ### The padded message (R150, R151) -/

/-- The number of zero bytes in the padding of `n` bytes, `(55 - n) mod 64` (R151). -/
def zeroCount (n : Nat) : Nat := (119 - n % 64) % 64

/-- R151: the parts of `pad(m)`. -/
theorem pad_eq (m : List Byte) :
    pad m = m ++ [0x80] ++ List.replicate (zeroCount m.length) 0 ++ be64 (BitVec.ofNat 64 (8 * m.length)) := by
  have hz : ((m ++ [(0x80 : Byte)]).length + zeroCount m.length) % 64 = 56 := by
    rw [List.length_append, List.length_singleton, zeroCount]
    omega
  have h64 : zeroCount m.length < 64 := Nat.mod_lt _ (by decide)
  rw [pad, padZeros_eq 63 _ _ (by omega) hz h64]

@[simp] theorem be64_length (v : Length) : (be64 v).length = 8 := by simp [be64]

/-- R151: the number of blocks of the padded message. -/
def padBlocks (n : Nat) : Nat := n / 64 + (if n % 64 ≤ 55 then 1 else 2)

theorem pad_length (m : List Byte) : (pad m).length = 64 * padBlocks m.length := by
  rw [pad_eq, padBlocks]
  simp only [List.length_append, List.length_singleton, List.length_replicate, be64_length, zeroCount]
  split <;> omega

theorem pad_length_div (m : List Byte) : (pad m).length / 64 = padBlocks m.length := by
  rw [pad_length]
  omega

theorem prefix_pad (m : List Byte) : m <+: pad m := by
  rw [pad_eq, List.append_assoc, List.append_assoc]
  exact List.prefix_append _ _

/-! ### The bytes of the padded message -/

/-- A byte sequence that another extends has the bytes of that one. -/
theorem getElem?_of_prefix {p q : List Byte} (h : p <+: q) {i : Nat} (hi : i < p.length) : q[i]? = p[i]? := by
  rw [List.prefix_iff_getElem?.mp h i hi, List.getElem?_eq_getElem hi]

/-- What stands after the message. -/
theorem pad_getD_suffix (m : List Byte) (j : Nat) :
    (pad m).getD (m.length + j) 0 =
      ([0x80] ++ List.replicate (zeroCount m.length) 0 ++ be64 (BitVec.ofNat 64 (8 * m.length))).getD j 0 := by
  rw [pad_eq, List.append_assoc, List.append_assoc, List.getD_append_right _ _ _ _ (by omega), Nat.add_sub_cancel_left,
    List.append_assoc]

theorem pad_getD_marker (m : List Byte) : (pad m).getD m.length 0 = 0x80 := pad_getD_suffix m 0

theorem pad_getD_zero {m : List Byte} {i : Nat} (h1 : m.length < i) (h2 : i ≤ m.length + zeroCount m.length) :
    (pad m).getD i 0 = 0 := by
  obtain ⟨j, rfl⟩ : ∃ j, i = m.length + (j + 1) := ⟨i - m.length - 1, by omega⟩
  have hj : j < zeroCount m.length := by omega
  rw [pad_getD_suffix, List.getD_append _ _ _ _ (by simp; omega)]
  simp [hj]

theorem pad_getD_length {m : List Byte} {i k : Nat} (hk : k < 8) (hi : i = m.length + zeroCount m.length + 1 + k) :
    (pad m).getD i 0 = be64Byte (BitVec.ofNat 64 (8 * m.length)) k := by
  obtain rfl : i = m.length + (zeroCount m.length + 1 + k) := by omega
  rw [pad_getD_suffix, List.getD_append_right _ _ _ _ (by simp)]
  simp [be64, hk]

/-! ### The blocks of a byte sequence (R192) -/

theorem blockAt_getElem (p : List Byte) (j : Nat) {k : Nat} (hk : k < 64) :
    (blockAt p j)[k] = p.getD (64 * j + k) 0 := by
  simp [blockAt]

/-- The schedule words of the first `n` blocks of `p`. -/
def firstBlocks (p : List Byte) (n : Nat) : List (Vector Word 16) :=
  (List.range n).map fun k => blockWords (blockAt p k)

@[simp] theorem firstBlocks_length (p : List Byte) (n : Nat) : (firstBlocks p n).length = n := by simp [firstBlocks]

theorem firstBlocks_succ (p : List Byte) (n : Nat) :
    firstBlocks p (n + 1) = firstBlocks p n ++ [blockWords (blockAt p n)] := by
  simp [firstBlocks, List.range_succ]

/-- The full blocks of a byte sequence are blocks of every extension of it. -/
theorem blockAt_of_prefix {p q : List Byte} (h : p <+: q) {j : Nat} (hj : 64 * (j + 1) ≤ p.length) :
    blockAt q j = blockAt p j :=
  Vector.ext fun k hk => by
    have hi : 64 * j + k < p.length := by omega
    simp only [blockAt_getElem _ _ hk, List.getD_eq_getElem?_getD, getElem?_of_prefix h hi]

theorem firstBlocks_of_prefix {p q : List Byte} (h : p <+: q) {n : Nat} (hn : 64 * n ≤ p.length) :
    firstBlocks q n = firstBlocks p n :=
  List.map_congr_left fun j hj => by
    have hlt := List.mem_range.mp hj
    rw [blockAt_of_prefix h (by omega)]

end Sys2Proof

namespace Sys2Proof.Machine

/-! ### FOLD and the buffer -/

@[simp] theorem foldStep_buf (c : CoreState) : (foldStep c).buf = c.buf := by
  unfold foldStep; split <;> rfl

/-- R157: the schedule words of the block that FOLD LOADs. -/
theorem foldStep_w_pad2 {c : CoreState} (h : c.tail = .pad2) : (foldStep c).w = blockWords (padBlock2 c.len) := by
  simp [foldStep, h]

/-! ### The block a transition LOADs (R33, R194) -/

theorem loadedBy_of_idle {c d : CoreState} (hd : d.busy = false) : loadedBy c d = [] := by
  simp [loadedBy, hd]

theorem loadedBy_of_started {c d : CoreState} (hd : d.t ≠ 0) : loadedBy c d = [] := by
  simp [loadedBy, hd]

theorem loadedBy_of_load {c d : CoreState} (hc : c.busy = false ∨ c.t ≠ 0) (hb : d.busy = true) (ht : d.t = 0) :
    loadedBy c d = [d.w] := by
  rcases hc with hc | hc <;> simp [loadedBy, hc, hb, ht]

/-- ROUND LOADs no block. -/
theorem loadedBy_roundStep (c : CoreState) (h : c.t.val < 64) : loadedBy c (roundStep c h) = [] := by
  refine loadedBy_of_started fun h0 => ?_
  have hval := congrArg Fin.val h0
  simp at hval

/-! ### What CORE holds of an open message (R155) -/

/-- The first BCNT bytes of BUF are those of `m` after its full blocks (R155). -/
def BufHolds (c : CoreState) (m : List Byte) : Prop :=
  ∀ k : Fin 64, k.val < c.bcnt.val → m[64 * (m.length / 64) + k.val]? = some c.buf[k]

/-- R155 with the first part of R158: CORE holds the open message `m`, of which the full blocks have been LOADed. -/
structure OpenHeld (c : CoreState) (m : List Byte) (l : List (Vector Word 16)) : Prop where
  done : c.done = false
  tail : c.tail = .none
  len : c.len.toNat = 8 * m.length
  bcnt : c.bcnt.val = m.length % 64
  buf : BufHolds c m
  loaded : l = firstBlocks m (m.length / 64)

@[simp] theorem dinBytes_length (nb : Nat) (din : Word) : (dinBytes nb din).length = nb := by simp [dinBytes]

/-- The bytes of DIN stand after the message. -/
theorem append_dinBytes_getElem? (m : List Byte) {nb i : Nat} (din : Word) (h1 : m.length ≤ i) (h2 : i < m.length + nb) :
    (m ++ dinBytes nb din)[i]? = some (dinByte din (i - m.length)) := by
  have hlt : i - m.length < nb := by omega
  rw [List.getElem?_append_right h1]
  simp [dinBytes, hlt]

namespace OpenHeld

variable {c : CoreState} {m : List Byte} {l : List (Vector Word 16)}

/-- A message begins with no bytes. -/
theorem empty (hd : c.done = false) (ht : c.tail = .none) (hl : c.len = 0) (hb : c.bcnt = 0) : OpenHeld c [] [] :=
  ⟨hd, ht, by simp [hl], by simp [hb], fun k hk => absurd hk (by simp [hb]), rfl⟩

/-- Only DONE, TAIL, LEN, BCNT and BUF matter. -/
theorem of_same {d : CoreState} (h : OpenHeld c m l) (hd : d.done = c.done) (ht : d.tail = c.tail) (hl : d.len = c.len)
    (hb : d.bcnt = c.bcnt) (hbuf : d.buf = c.buf) : OpenHeld d m l := by
  have hBuf : BufHolds d m := by
    rw [BufHolds, hb, hbuf]
    exact h.buf
  exact ⟨hd.trans h.done, ht.trans h.tail, hl ▸ h.len, hb ▸ h.bcnt, hBuf, h.loaded⟩

theorem len_eq (h : OpenHeld c m l) : c.len = BitVec.ofNat 64 (8 * m.length) := by
  rw [← h.len, BitVec.ofNat_toNat, BitVec.setWidth_eq]

/-- R154: a PUSH with room for its bytes appends them, and LOADs no block. -/
theorem push_room {nb : Nat} (h : OpenHeld c m l) (hb : c.busy = false) (hroom : c.bcnt.val + nb < 64) :
    BufHolds (pushBytes nb c) (m ++ dinBytes nb c.din) ∧
      l ++ loadedBy c (pushBytes nb c) =
        firstBlocks (m ++ dinBytes nb c.din) ((m ++ dinBytes nb c.din).length / 64) := by
  obtain ⟨buf, e, hbuf⟩ := pushBytes_room nb c hroom
  have hn := h.bcnt
  have hq : (m ++ dinBytes nb c.din).length / 64 = m.length / 64 := by
    rw [List.length_append, dinBytes_length]
    omega
  refine ⟨fun k hk => ?_, ?_⟩
  · rw [e] at hk ⊢
    dsimp only at hk ⊢
    rw [hq, hbuf k]
    by_cases hold : k.val < c.bcnt.val
    · rw [if_neg (by omega), List.getElem?_append_left (by omega), h.buf k hold]
    · rw [if_pos (by omega), append_dinBytes_getElem? m c.din (by omega) (by omega),
        show 64 * (m.length / 64) + k.val - m.length = k.val - c.bcnt.val by omega]
  · have hidle : (pushBytes nb c).busy = false := by rw [e, hb]
    rw [loadedBy_of_idle hidle, List.append_nil, hq, firstBlocks_of_prefix ⟨_, rfl⟩ (by omega), h.loaded]

/-- R154: a PUSH that fills the buffer LOADs the message's next block, and holds the bytes after it. -/
theorem push_fill {nb : Nat} (h : OpenHeld c m l) (hb : c.busy = false) (h4 : nb ≤ 4) (hfill : 64 ≤ c.bcnt.val + nb) :
    BufHolds (pushBytes nb c) (m ++ dinBytes nb c.din) ∧
      l ++ loadedBy c (pushBytes nb c) =
        firstBlocks (m ++ dinBytes nb c.din) ((m ++ dinBytes nb c.din).length / 64) := by
  obtain ⟨b, buf, e, hblock, hbuf⟩ := pushBytes_fill nb c hfill h4
  have hn := h.bcnt
  have hq : (m ++ dinBytes nb c.din).length / 64 = m.length / 64 + 1 := by
    rw [List.length_append, dinBytes_length]
    omega
  have hnext : b = blockAt (m ++ dinBytes nb c.din) (m.length / 64) := by
    refine Vector.ext fun k hk => (hblock ⟨k, hk⟩).trans ?_
    dsimp only
    rw [blockAt_getElem _ _ hk, List.getD_eq_getElem?_getD]
    by_cases hold : k < c.bcnt.val
    · rw [if_pos hold, List.getElem?_append_left (by omega), h.buf ⟨k, hk⟩ hold, Option.getD_some]
    · rw [if_neg hold, append_dinBytes_getElem? m c.din (by omega) (by omega), Option.getD_some,
        show 64 * (m.length / 64) + k - m.length = k - c.bcnt.val by omega]
  rw [e]
  refine ⟨fun k hk => ?_, ?_⟩
  · dsimp only at hk ⊢
    rw [hq, hbuf k, if_pos hk, append_dinBytes_getElem? m c.din (by omega) (by omega),
      show 64 * (m.length / 64 + 1) + k.val - m.length = k.val + 64 - c.bcnt.val by omega]
  · rw [loadedBy_of_load (.inl hb) rfl rfl, hq, firstBlocks_succ, ← hnext, h.loaded,
      firstBlocks_of_prefix ⟨_, rfl⟩ (by omega)]

/-- R234: an accepted PUSH extends the message. -/
theorem push {nb : Nat} (h : OpenHeld c m l) (hb : c.busy = false) (hl : lengthFits nb c = true) (h4 : nb ≤ 4) :
    OpenHeld (pushBytes nb c) (m ++ dinBytes nb c.din) (l ++ loadedBy c (pushBytes nb c)) := by
  obtain ⟨elen, ebcnt, -, -, edone, etail, -, -, -⟩ := pushBytes_effect nb c h4 hl
  have hlen : (m ++ dinBytes nb c.din).length = m.length + nb := by simp
  obtain ⟨hbuf, hloaded⟩ := (Nat.lt_or_ge (c.bcnt.val + nb) 64).elim (h.push_room hb) (h.push_fill hb h4)
  refine ⟨edone.trans h.done, etail.elim (·.trans h.tail) id, ?_, ?_, hbuf, hloaded⟩
  · rw [elen, h.len, hlen]
    omega
  · rw [ebcnt, h.bcnt, hlen]
    omega

/-- R196: the core steps of an open message, whose blocks have `TAIL = NONE`, LOAD none and set no DONE. -/
theorem core (h : OpenHeld c m l) : OpenHeld (sequencerStep c) m (l ++ loadedBy c (sequencerStep c)) := by
  rcases sequencerStep_cases c with ⟨hb, e⟩ | ⟨-, ht, e⟩ | ⟨-, -, e⟩
  · rw [e, loadedBy_of_idle hb, List.append_nil]
    exact h
  · rw [e, loadedBy_roundStep, List.append_nil]
    exact h.of_same rfl rfl rfl rfl rfl
  · rw [e, loadedBy_of_idle (by simp [h.tail]), List.append_nil]
    exact h.of_same (by simp [h.tail]) (by simp [h.tail]) (foldStep_len c) (foldStep_bcnt c) (foldStep_buf c)

end OpenHeld

/-! ### What CORE holds of a closed message (R156, R157) -/

/-- R156: the buffer that FINISH pads is the block of the padded message that holds its `0x80`. -/
theorem paddedBlock_eq_blockAt {c : CoreState} {m : List Byte} {l : List (Vector Word 16)} (h : OpenHeld c m l) :
    Vector.ofFn (paddedByte c) = blockAt (pad m) (m.length / 64) := by
  have hn := h.bcnt
  have hz : zeroCount m.length = (119 - m.length % 64) % 64 := rfl
  refine Vector.ext fun k hk => ?_
  rw [Vector.getElem_ofFn, blockAt_getElem _ _ hk, paddedByte]
  simp only [Fin.ext_iff]
  split_ifs with hmsg hmark hfield
  · rw [List.getD_eq_getElem?_getD, getElem?_of_prefix (prefix_pad m) (by omega), h.buf ⟨k, hk⟩ hmsg, Option.getD_some]
  · rw [show 64 * (m.length / 64) + k = m.length by omega, pad_getD_marker]
  · rw [pad_getD_length (k := k - 56) (by omega) (by omega), h.len_eq]
  · rw [pad_getD_zero (by omega) (by omega)]

/-- R157: with no room for the length beside the `0x80`, the padded message ends with the second padding block. -/
theorem padBlock2_eq_blockAt {m : List Byte} (h : 56 ≤ m.length % 64) :
    padBlock2 (BitVec.ofNat 64 (8 * m.length)) = blockAt (pad m) (m.length / 64 + 1) := by
  have hz : zeroCount m.length = (119 - m.length % 64) % 64 := rfl
  refine Vector.ext fun k hk => ?_
  rw [padBlock2_getElem, blockAt_getElem _ _ hk]
  split_ifs with hfield
  · rw [pad_getD_zero (by omega) (by omega)]
  · rw [pad_getD_length (k := k - 56) (by omega) (by omega)]

/-- R158: the blocks LOADed of the closed message `m`, and what the second padding block needs while it is to come. -/
structure ClosedHeld (c : CoreState) (m : List Byte) (l : List (Vector Word 16)) : Prop where
  loaded : l = firstBlocks (pad m) (padBlocks m.length - if c.tail = .pad2 then 1 else 0)
  pad2 : c.tail = .pad2 → c.len = BitVec.ofNat 64 (8 * m.length) ∧ 56 ≤ m.length % 64

/-- R235: an accepted FINISH LOADs the block with the `0x80`: the last one, or with `TAIL = PAD2` the last but one. -/
theorem OpenHeld.finish {c : CoreState} {m : List Byte} {l : List (Vector Word 16)} (h : OpenHeld c m l)
    (hb : c.busy = false) : ClosedHeld (padFinal c) m (l ++ loadedBy c (padFinal c)) := by
  have hn := h.bcnt
  have hcount : padBlocks m.length - (if (padFinal c).tail = .pad2 then 1 else 0) = m.length / 64 + 1 := by
    rw [padFinal_tail, padBlocks, hn]
    by_cases hroom : m.length % 64 ≤ 55 <;> simp [hroom]
  have hprefix := firstBlocks_of_prefix (prefix_pad m) (n := m.length / 64) (by omega)
  constructor
  · rw [loadedBy_of_load (.inl hb) rfl rfl, hcount, firstBlocks_succ, hprefix, h.loaded, padFinal_w,
      paddedBlock_eq_blockAt h]
  · intro htail
    rw [padFinal_tail] at htail
    split_ifs at htail with hroom
    exact ⟨h.len_eq, by omega⟩

namespace ClosedHeld

variable {c : CoreState} {m : List Byte} {l : List (Vector Word 16)}

/-- Only TAIL and LEN matter. -/
theorem of_same {d : CoreState} (h : ClosedHeld c m l) (ht : d.tail = c.tail) (hl : d.len = c.len) :
    ClosedHeld d m l :=
  ⟨ht ▸ h.loaded, ht ▸ hl ▸ h.pad2⟩

/-- R157, R196: the FOLD with `TAIL = PAD2` LOADs the block still to come. -/
theorem fold_pad2 (h : ClosedHeld c m l) (hT : c.tail = .pad2) (ht : c.t.val = 64) :
    ClosedHeld (foldStep c) m (l ++ loadedBy c (foldStep c)) := by
  obtain ⟨hlen, hmod⟩ := h.pad2 hT
  have ht0 : c.t ≠ 0 := by
    intro h0
    simp [h0] at ht
  have hcount : padBlocks m.length = m.length / 64 + 1 + 1 := by
    rw [padBlocks, if_neg (by omega)]
  have hT' : (foldStep c).tail ≠ .pad2 := by simp [hT]
  have hload : loadedBy c (foldStep c) = [blockWords (blockAt (pad m) (m.length / 64 + 1))] := by
    rw [loadedBy_of_load (.inr ht0) (by simp [hT]) (foldStep_t c), foldStep_w_pad2 hT, hlen, padBlock2_eq_blockAt hmod]
  refine ⟨?_, fun h' => absurd h' hT'⟩
  rw [hload, h.loaded, if_pos hT, if_neg hT', hcount]
  exact (firstBlocks_succ _ _).symm

/-- R196: no other core step LOADs a block. -/
theorem core (h : ClosedHeld c m l) : ClosedHeld (sequencerStep c) m (l ++ loadedBy c (sequencerStep c)) := by
  rcases sequencerStep_cases c with ⟨hb, e⟩ | ⟨-, ht, e⟩ | ⟨-, ht, e⟩ <;> rw [e]
  · rw [loadedBy_of_idle hb, List.append_nil]
    exact h
  · rw [loadedBy_roundStep, List.append_nil]
    exact h.of_same rfl rfl
  · by_cases hT : c.tail = .pad2
    · exact h.fold_pad2 hT ht
    · have hT' : (foldStep c).tail ≠ .pad2 := by simp [hT]
      rw [loadedBy_of_idle (by simp [hT]), List.append_nil]
      exact ⟨by rw [h.loaded, if_neg hT, if_neg hT'], fun h' => absurd h' hT'⟩

end ClosedHeld

/-! ### Every run of a message -/

/-- What CORE holds of a message, open or closed. -/
def Held (c : CoreState) (m : List Byte) (closed : Bool) (l : List (Vector Word 16)) : Prop :=
  if closed then ClosedHeld c m l else OpenHeld c m l

/-- A dropped command or another access leaves what is held. -/
theorem Held.of_same {c d : CoreState} {m : List Byte} {closed : Bool} {l : List (Vector Word 16)}
    (h : Held c m closed l) (hd : d.done = c.done) (ht : d.tail = c.tail) (hl : d.len = c.len)
    (hb : d.bcnt = c.bcnt) (hbuf : d.buf = c.buf) : Held d m closed l := by
  cases closed with
  | false => exact OpenHeld.of_same h hd ht hl hb hbuf
  | true => exact ClosedHeld.of_same h ht hl

/-- R155, R158: the invariant of a message run. -/
theorem MessageRun.held {c : CoreState} {m : List Byte} {closed : Bool} {l : List (Vector Word 16)}
    (h : MessageRun c m closed l) : Held c m closed l := by
  induction h with
  | reset hc =>
    subst hc
    exact OpenHeld.empty rfl rfl rfl rfl
  | init hi hx =>
    rw [exec_command_core hi hx]
    exact OpenHeld.empty rfl rfl rfl rfl
  | push _ hi ha hx ih =>
    obtain ⟨hb, he, hd, hl⟩ := accepted_push_iff.mp ha
    rw [exec_command_core hi hx, performCommand_push hb he hd hl]
    exact OpenHeld.push ih hb hl (commandOf_push_range hi).2
  | finish _ hi ha hx ih =>
    obtain ⟨hb, he, hd⟩ := accepted_finish_iff.mp ha
    rw [exec_command_core hi hx, performCommand_finish hb he hd]
    exact OpenHeld.finish ih hb
  | @core c m closed l _ ih =>
    cases closed with
    | false => exact OpenHeld.core ih
    | true => exact ClosedHeld.core ih
  | other _ hi ha hx ih =>
    rcases exec_dropped hi ha hx with e | ⟨x, e⟩ | ⟨f, e⟩ <;> rw [e]
    · exact ih
    · exact ih.of_same rfl rfl rfl rfl rfl
    · exact ih.of_same (by simp) (by simp) (by simp) (by simp) (by simp)

/-! ### The obligations -/

/-- Settles O31: an accepted PUSH is its PushBytes, here with room for every byte. -/
theorem pushAppendsBytesOfDin : Obligations.PushAppendsBytesOfDin := fun s i nb hi hb he hd hl hroom => by
  obtain ⟨buf, e, hbuf⟩ := pushBytes_room nb s.core hroom
  refine ⟨_, exec_command (commandOf_of_mem_pushRows hi) s, ?_⟩
  rw [performCommand_push hb he hd (decide_eq_true hl), e]
  exact ⟨rfl, rfl, hbuf⟩

/-- Settles O32: an accepted PUSH is its PushBytes, here past the last byte of the buffer. -/
theorem pushThatFillsLoadsTheBlock : Obligations.PushThatFillsLoadsTheBlock := fun s i nb hi hb he hd hl hfill => by
  have hc := commandOf_of_mem_pushRows hi
  obtain ⟨b, buf, e, hblock, hbuf⟩ := pushBytes_fill nb s.core hfill (commandOf_push_range hc).2
  refine ⟨_, b, exec_command hc s, ?_⟩
  rw [performCommand_push hb he hd (decide_eq_true hl), e]
  exact ⟨rfl, rfl, hblock, hbuf⟩

/-- Settles O33: an accepted FINISH is its PadFinal, whose buffer is `paddedByte` byte by byte. -/
theorem finishLoadsThePaddedBlock : Obligations.FinishLoadsThePaddedBlock := fun s i hi hb he hd => by
  refine ⟨_, exec_command (commandOf_of_mem_finishRows hi) s, ?_⟩
  rw [performCommand_finish hb he hd]
  refine ⟨rfl, fun k => ?_⟩
  rw [padFinal_buf, ofFn_getElem_fin, paddedByte]
  simp only [Fin.ext_iff]
  rfl

/-- Settles O47: the parts of `pad(m)`, and arithmetic on their lengths. -/
theorem padHasTheStatedProperties : Obligations.PadHasTheStatedProperties := fun m _ => by
  have hlen := pad_length m
  have hceil : padBlocks m.length = (8 * m.length + 65 + 511) / 512 := by
    rw [padBlocks]
    split <;> omega
  have hbits : 8 * (m.length + 1 + (119 - m.length % 64) % 64) % 512 = 448 := by omega
  exact ⟨by omega, by omega, prefix_pad m, pad_eq m, hbits, (pad_length_div m).trans hceil, pad_length_div m⟩

/-- Settles O56: the open half of what a run holds. -/
theorem openMessageIsHeld : Obligations.OpenMessageIsHeld := fun c m l h => by
  obtain ⟨hdone, htail, hlen, hbcnt, hbuf, hloaded⟩ : OpenHeld c m l := h.held
  exact ⟨hdone, htail, hlen, hbcnt, by rw [hloaded, firstBlocks_length], hbuf⟩

/-- Settles O57: the closed half of what a run holds. -/
theorem loadedBlocksAreThePaddedMessage : Obligations.LoadedBlocksAreThePaddedMessage := fun c m l h => by
  obtain ⟨hloaded, -⟩ : ClosedHeld c m l := h.held
  rw [pad_length_div]
  exact hloaded

end Sys2Proof.Machine
end

-- The statement of spec/42_scheduler.md: the 16-word window gives every round the word of the 64-word schedule.
section

namespace Sys2Proof.Machine

/-! ### The words of `expand` (R170, R171) -/

/-- Words already in the schedule keep their place. -/
theorem extendSchedule_getD_of_lt (n : Nat) {w : List Word} {j : Nat} (hj : j < w.length) :
    (extendSchedule n w).getD j 0 = w.getD j 0 := by
  obtain ⟨r, hr⟩ := prefix_extendSchedule n w
  rw [← hr, List.getD_append _ _ _ _ hj]

/-- The first word added is the recurrence on the words before it. -/
theorem extendSchedule_getD_length (n : Nat) (w : List Word) :
    (extendSchedule (n + 1) w).getD w.length 0 = nextScheduleWord w := by
  rw [extendSchedule, extendSchedule_getD_of_lt n (by simp), List.getD_append_right _ _ _ _ le_rfl, Nat.sub_self]
  rfl

/-- R170: the first sixteen words are those of the block. -/
theorem expand_getD_of_lt_16 (b : Block) {j : Nat} (hj : j < 16) : (expand b).getD j 0 = windowWord (blockWords b) j := by
  rw [expand, extendSchedule_getD_of_lt 48 (by simpa using hj)]
  simp [windowWord, Nat.mod_eq_of_lt hj, hj]

/-- `expand(B)` cut at any word from the sixteenth on. -/
theorem expand_eq_extendSchedule (b : Block) {t : Nat} (h16 : 16 ≤ t) (h64 : t < 64) :
    ∃ w : List Word, w.length = t ∧ expand b = extendSchedule (63 - t + 1) w := by
  refine ⟨extendSchedule (t - 16) (blockWords b).toList, ?_, ?_⟩
  · rw [extendSchedule_length, Vector.length_toList]
    omega
  · rw [← extendSchedule_add, expand]
    congr 1
    omega

/-- R171: every later word is the recurrence on the words at distances 2, 7, 15 and 16. -/
theorem expand_getD_recurrence (b : Block) {t : Nat} (h16 : 16 ≤ t) (h64 : t < 64) :
    (expand b).getD t 0 = scheduleSum ((expand b).getD (t - 2) 0) ((expand b).getD (t - 7) 0)
      ((expand b).getD (t - 15) 0) ((expand b).getD (t - 16) 0) := by
  obtain ⟨w, rfl, hexpand⟩ := expand_eq_extendSchedule b h16 h64
  rw [hexpand, extendSchedule_getD_length, nextScheduleWord]
  simp (disch := omega) only [extendSchedule_getD_of_lt]

/-! ### The slots of the window (R172) -/

@[simp] theorem windowWord_setWindowWord_self (w : Vector Word 16) (n : Nat) (x : Word) :
    windowWord (setWindowWord w n x) n = x := by
  simp [windowWord, setWindowWord]

theorem windowWord_setWindowWord_of_ne (w : Vector Word 16) {n j : Nat} (x : Word) (h : n % 16 ≠ j % 16) :
    windowWord (setWindowWord w n x) j = windowWord w j := by
  simp [windowWord, setWindowWord, h]

/-- The slot of word `t` is that of word `t - 16`. -/
theorem windowWord_sub_16 (w : Vector Word 16) {t : Nat} (h : 16 ≤ t) : windowWord w (t - 16) = windowWord w t := by
  simp only [windowWord, ← Nat.mod_eq_sub_mod h]

theorem schedWindow_of_lt_16 {t : Nat} (w : Vector Word 16) (h : t < 16) : schedWindow t w = w :=
  if_neg (Nat.not_le.mpr h)

theorem schedWindow_of_ge_16 {t : Nat} (w : Vector Word 16) (h : 16 ≤ t) :
    schedWindow t w = setWindowWord w t (scheduleSum (windowWord w (t - 2)) (windowWord w (t - 7))
      (windowWord w (t - 15)) (windowWord w t)) :=
  if_pos h

/-! ### The invariant of R173 -/

/-- Just before ROUND(t) the window holds the last sixteen of the first `max t 16` words of `expand(B)`. -/
def WindowHolds (b : Block) (t : Nat) (w : Vector Word 16) : Prop :=
  ∀ j, j < max t 16 → max t 16 ≤ j + 16 → windowWord w j = (expand b).getD j 0

/-- R194: LOAD establishes it. -/
theorem windowHolds_blockWords (b : Block) : WindowHolds b 0 (blockWords b) := fun _ hj _ =>
  (expand_getD_of_lt_16 b (by simpa using hj)).symm

namespace WindowHolds

variable {b : Block} {t : Nat} {w : Vector Word 16}

/-- The word at distance `k` before round `t`. -/
theorem word_before (h : WindowHolds b t w) {k : Nat} (h16 : 16 ≤ t) (h1 : 1 ≤ k) (hk : k ≤ 16) :
    windowWord w (t - k) = (expand b).getD (t - k) 0 :=
  h (t - k) (by omega) (by omega)

/-- SchedWord(t) forms word `t` of `expand(B)`: the slot it overwrites still holds the word at distance 16. -/
theorem schedWindow_word (h : WindowHolds b t w) (h64 : t < 64) :
    windowWord (schedWindow t w) t = (expand b).getD t 0 := by
  by_cases h16 : 16 ≤ t
  · rw [schedWindow_of_ge_16 w h16, windowWord_setWindowWord_self, expand_getD_recurrence b h16 h64,
      ← windowWord_sub_16 w h16]
    simp (disch := omega) only [h.word_before]
  · rw [schedWindow_of_lt_16 w (by omega)]
    exact h t (by omega) (by omega)

/-- SchedWord(t) keeps it: of the sixteen words it drops the oldest, for word `t`. -/
theorem step (h : WindowHolds b t w) (h64 : t < 64) : WindowHolds b (t + 1) (schedWindow t w) := by
  intro j hlt hge
  by_cases h16 : 16 ≤ t
  · by_cases hj : j = t
    · exact hj ▸ h.schedWindow_word h64
    · rw [schedWindow_of_ge_16 w h16, windowWord_setWindowWord_of_ne w _ (by omega)]
      exact h j (by omega) (by omega)
  · rw [schedWindow_of_lt_16 w (by omega)]
    exact h j (by omega) (by omega)

end WindowHolds

/-! ### The rounds of a LOADed block -/

/-- CORE has made the first `n` rounds of the block `b`. -/
structure InRound (b : Block) (n : Nat) (c : CoreState) : Prop where
  busy : c.busy = true
  t : c.t.val = n
  window : WindowHolds b n c.w

/-- One more round. -/
theorem InRound.step {b : Block} {n : Nat} {c : CoreState} (h : InRound b n c) (hn : n < 64) :
    InRound b (n + 1) (sequencerStep c) := by
  obtain ⟨hbusy, rfl, hwindow⟩ := h
  rw [sequencerStep_round hbusy hn]
  exact ⟨hbusy, rfl, hwindow.step hn⟩

/-- Core steps from a LOADed block. -/
theorem inRound_iterate {b : Block} {c : CoreState} (hb : c.busy = true) (ht : c.t = 0) (hw : c.w = blockWords b) {n : Nat}
    (hn : n ≤ 64) : InRound b n (sequencerStep^[n] c) := by
  induction n with
  | zero => exact ⟨hb, congrArg Fin.val ht, hw ▸ windowHolds_blockWords b⟩
  | succ n ih =>
    rw [Function.iterate_succ_apply']
    exact (ih (by omega)).step hn

/-- Settles O39: the invariant of R173 at round `n`. -/
theorem windowAgreesWithTheSchedule : Obligations.WindowAgreesWithTheSchedule := fun c b n hb ht hw hn => by
  obtain ⟨-, hround, hwindow⟩ := inRound_iterate hb ht hw hn.le
  exact ⟨hround, hwindow.schedWindow_word hn, fun k => hwindow.word_before⟩

end Sys2Proof.Machine
end

-- The statements of spec/43_compressor.md: the core steps compress the LOADed block, the blocks of a message make its
-- digest, and how a digest is rendered.
section

namespace Sys2Proof.Machine

/-! ### One ROUND (R195) -/

/-- R172: the word that SchedWord(t) answers with. -/
theorem windowWord_schedWindow (t : Nat) (w : Vector Word 16) :
    windowWord (schedWindow t w) t = if 16 ≤ t then
      scheduleSum (windowWord w (t - 2)) (windowWord w (t - 7)) (windowWord w (t - 15)) (windowWord w t)
      else windowWord w t := by
  split_ifs with h16
  · rw [schedWindow_of_ge_16 w h16, windowWord_setWindowWord_self]
  · rw [schedWindow_of_lt_16 w (by omega)]

/-- R172: SchedWord(t) leaves its word in slot `t mod 16` and every other slot as it was. -/
theorem schedWindow_getElem (t : Nat) (w : Vector Word 16) {j : Nat} (hj : j < 16) :
    (schedWindow t w)[j] = if j = t % 16 then windowWord (schedWindow t w) t else w[j] := by
  split_ifs with hslot
  · subst hslot
    rfl
  · by_cases h16 : 16 ≤ t
    · rw [schedWindow_of_ge_16 w h16]
      exact Vector.getElem_set_ne _ hj (Ne.symm hslot)
    · rw [schedWindow_of_lt_16 w (by omega)]

/-- The table of R132, row after row. -/
def kTable : List Word :=
  kOctet 0 ++ kOctet 1 ++ kOctet 2 ++ kOctet 3 ++ kOctet 4 ++ kOctet 5 ++ kOctet 6 ++ kOctet 7

/-- The ROM holds the table. -/
theorem kTable_getElem? {t : Nat} (ht : t < 64) : kTable[t]? = some (kRom t) := by
  have hrom : ∀ t : Fin 64, kTable[t.val]? = some (kRom t.val) := by decide
  exact hrom ⟨t, ht⟩

/-- Settles O37: the core step is the ROUND, with the word of R172 and the constant of R132. -/
theorem roundPerformsOneRound : Obligations.RoundPerformsOneRound := fun c hb ht =>
  ⟨roundStep c ht, windowWord (schedWindow c.t.val c.w) c.t.val, kRom c.t.val, sequencerStep_round hb ht, rfl, rfl,
    windowWord_schedWindow c.t.val c.w, fun j => schedWindow_getElem c.t.val c.w j.isLt, kTable_getElem? ht,
    _, _, rfl, rfl, rfl⟩

/-- Settles O38: the core step is the FOLD, which continues by TAIL. -/
theorem foldFoldsAndContinuesByTail : Obligations.FoldFoldsAndContinuesByTail := fun c hb ht => by
  refine ⟨c.h.add c.v, rfl, ?_⟩
  rw [sequencerStep_fold hb ht]
  rcases foldStep_cases c with ⟨hT, e⟩ | ⟨hT, e⟩ | ⟨hT, e⟩ <;> simp [hT, e, hb]

/-! ### One block: 64 ROUNDs and a FOLD (R190, R199) -/

@[simp] theorem foldStep_h (c : CoreState) : (foldStep c).h = c.h.add c.v := by
  unfold foldStep; split <;> rfl

/-- R194: V starts from the folded `H` in the block that FOLD LOADs. -/
theorem foldStep_v_pad2 {c : CoreState} (h : c.tail = .pad2) : (foldStep c).v = c.h.add c.v := by
  simp [foldStep, h]

/-- CORE has made the first `n` rounds of `compress(H, b)`. -/
structure Compressing (b : Block) (n : Nat) (c : CoreState) : Prop where
  inRound : InRound b n c
  v : c.v = roundsFrom (expand b) c.h n

namespace Compressing

variable {b : Block} {n : Nat} {c : CoreState}

/-- R194: LOAD establishes it. -/
theorem of_load (hb : c.busy = true) (ht : c.t = 0) (hw : c.w = blockWords b) (hv : c.v = c.h) : Compressing b 0 c :=
  ⟨⟨hb, congrArg Fin.val ht, hw ▸ windowHolds_blockWords b⟩, hv⟩

/-- Only BUSY, t, W, V and H matter. -/
theorem of_same {d : CoreState} (h : Compressing b n c) (hb : d.busy = c.busy) (ht : d.t = c.t) (hw : d.w = c.w)
    (hv : d.v = c.v) (hh : d.h = c.h) : Compressing b n d := by
  obtain ⟨⟨hbusy, hround, hwindow⟩, hrounds⟩ := h
  exact ⟨⟨hb.trans hbusy, ht ▸ hround, hw ▸ hwindow⟩, by rw [hv, hh, hrounds]⟩

/-- ROUND(n) is round `n` of `compress`, for the window answers with word `n` of `expand(b)`; it leaves `H`. -/
theorem round (h : Compressing b n c) (hn : n < 64) :
    Compressing b (n + 1) (sequencerStep c) ∧ (sequencerStep c).h = c.h := by
  have hnext := h.inRound.step hn
  obtain ⟨⟨hbusy, rfl, hwindow⟩, hv⟩ := h
  rw [sequencerStep_round hbusy hn] at hnext ⊢
  refine ⟨⟨hnext, ?_⟩, rfl⟩
  rw [roundStep_v, roundStep_h, hwindow.schedWindow_word hn, hv, roundsFrom]

/-- After 64 rounds FOLD completes `compress`. -/
theorem add_v (h : Compressing b 64 c) : c.h.add c.v = compress c.h b := by
  rw [compress, h.v]

theorem step_eq_foldStep (h : Compressing b 64 c) : sequencerStep c = foldStep c :=
  sequencerStep_fold h.inRound.busy h.inRound.t

/-- The rounds of a block that has just been LOADed. -/
theorem iterate (h : Compressing b 0 c) (hn : n ≤ 64) :
    Compressing b n (sequencerStep^[n] c) ∧ (sequencerStep^[n] c).h = c.h ∧ (sequencerStep^[n] c).tail = c.tail := by
  induction n with
  | zero => exact ⟨h, rfl, rfl⟩
  | succ n ih =>
    obtain ⟨hc, hh, htail⟩ := ih (by omega)
    obtain ⟨hc', hh'⟩ := hc.round hn
    rw [Function.iterate_succ_apply']
    refine ⟨hc', hh'.trans hh, ?_⟩
    rw [sequencerStep_round hc.inRound.busy (by rw [hc.inRound.t]; exact hn)]
    exact htail

end Compressing

/-- Settles O40: 64 ROUNDs that leave `H`, then the FOLD. -/
theorem sixtyFiveStepsCompressTheBlock : Obligations.SixtyFiveStepsCompressTheBlock := fun c b hb ht hw hv => by
  have hload := Compressing.of_load hb ht hw hv
  obtain ⟨hc, hh, htail⟩ := hload.iterate le_rfl
  refine ⟨fun n hn => ?_, ?_⟩
  · obtain ⟨hc, hh, -⟩ := hload.iterate (Nat.le_of_lt_succ hn)
    exact ⟨hc.inRound.busy, hh⟩
  · rw [Function.iterate_succ_apply', hc.step_eq_foldStep, foldStep_h, hc.add_v, hh, foldStep_busy, htail]
    exact ⟨rfl, decide_eq_true_iff⟩

/-! ### The blocks of a message (R192, R193) -/

/-- `compress` reads no more of a block than its words. -/
def compressWords (hin : Words8) (w : Vector Word 16) : Words8 :=
  hin.add (roundsFrom (extendSchedule 48 w.toList) hin 64)

theorem compressWords_blockWords (hin : Words8) (b : Block) : compressWords hin (blockWords b) = compress hin b := rfl

/-- The chaining value after blocks with the words `l`. -/
def chainWords (l : List (Vector Word 16)) : Words8 := l.foldl compressWords iv

theorem chainWords_append (l : List (Vector Word 16)) (b : Block) :
    chainWords (l ++ [blockWords b]) = compress (chainWords l) b := by
  simp [chainWords, compressWords_blockWords]

theorem chainWords_firstBlocks (p : List Byte) (n : Nat) : chainWords (firstBlocks p n) = chain p n := by
  induction n with
  | zero => rfl
  | succ n ih => rw [firstBlocks_succ, chainWords_append, ih, chain]

/-- R193: with the blocks of words `l` LOADed so far, `H` is their chaining value, or that of all but the block in
flight. -/
inductive Chained (c : CoreState) : List (Vector Word 16) → Prop
  | idle {l : List (Vector Word 16)} : c.busy = false → c.h = chainWords l → Chained c l
  | running {l : List (Vector Word 16)} {b : Block} {n : Nat} :
      Compressing b n c → c.h = chainWords l → Chained c (l ++ [blockWords b])

namespace Chained

variable {c d : CoreState} {l : List (Vector Word 16)}

theorem h_of_idle (h : Chained c l) (hb : c.busy = false) : c.h = chainWords l := by
  cases h with
  | idle _ hh => exact hh
  | running hc _ => simp [hc.inRound.busy] at hb

/-- Only BUSY, t, W, V and H matter. -/
theorem of_same (h : Chained c l) (hb : d.busy = c.busy) (ht : d.t = c.t) (hw : d.w = c.w) (hv : d.v = c.v)
    (hh : d.h = c.h) : Chained d l := by
  cases h with
  | idle hidle hc => exact .idle (hb.trans hidle) (hh.trans hc)
  | running hr hc => exact .running (hr.of_same hb ht hw hv hh) (hh.trans hc)

/-- R194: a LOAD puts a further block in flight. -/
theorem of_load {b : Block} (hc : c.busy = false ∨ c.t ≠ 0) (hh : d.h = chainWords l) (hb : d.busy = true) (ht : d.t = 0)
    (hw : d.w = blockWords b) (hv : d.v = d.h) : Chained d (l ++ loadedBy c d) := by
  rw [loadedBy_of_load hc hb ht, hw]
  exact .running (.of_load hb ht hw hv) hh

/-- R154: a PUSH leaves `H`, and LOADs the block it fills. -/
theorem push {nb : Nat} (h : Chained c l) (hb : c.busy = false) (h4 : nb ≤ 4) :
    Chained (pushBytes nb c) (l ++ loadedBy c (pushBytes nb c)) := by
  have hh := h.h_of_idle hb
  rcases Nat.lt_or_ge (c.bcnt.val + nb) 64 with hroom | hfill
  · obtain ⟨buf, e, -⟩ := pushBytes_room nb c hroom
    have hidle : (pushBytes nb c).busy = false := by rw [e, hb]
    rw [loadedBy_of_idle hidle, List.append_nil]
    exact .idle hidle (by rw [e, hh])
  · obtain ⟨b, buf, e, -⟩ := pushBytes_fill nb c hfill h4
    rw [e]
    exact of_load (.inl hb) hh rfl rfl rfl rfl

/-- R156: FINISH leaves `H`, and LOADs the buffer it pads. -/
theorem finish (h : Chained c l) (hb : c.busy = false) : Chained (padFinal c) (l ++ loadedBy c (padFinal c)) :=
  of_load (.inl hb) (h.h_of_idle hb) rfl rfl rfl rfl

/-- R196: FOLD goes on to the next chaining value, and LOADs the second padding block if there is one. -/
theorem fold {b : Block} (hc : Compressing b 64 c) (hh : c.h = chainWords l) :
    Chained (foldStep c) (l ++ [blockWords b] ++ loadedBy c (foldStep c)) := by
  have hfold : (foldStep c).h = chainWords (l ++ [blockWords b]) := by
    rw [foldStep_h, hc.add_v, hh, chainWords_append]
  by_cases hT : c.tail = .pad2
  · have ht : c.t ≠ 0 := by
      intro h0
      simpa [h0] using hc.inRound.t
    exact of_load (.inr ht) hfold (by simp [hT]) (foldStep_t c) (foldStep_w_pad2 hT)
      ((foldStep_v_pad2 hT).trans (foldStep_h c).symm)
  · have hidle : (foldStep c).busy = false := by simp [hT]
    rw [loadedBy_of_idle hidle, List.append_nil]
    exact .idle hidle hfold

theorem core (h : Chained c l) : Chained (sequencerStep c) (l ++ loadedBy c (sequencerStep c)) := by
  cases h with
  | idle hb hh =>
    rw [sequencerStep_idle hb, loadedBy_of_idle hb, List.append_nil]
    exact .idle hb hh
  | @running l b n hc hh =>
    obtain ⟨hbusy, ht, -⟩ := hc.inRound
    rcases Nat.lt_or_ge n 64 with hn | hn
    · obtain ⟨hc', hh'⟩ := hc.round hn
      rw [sequencerStep_round hbusy (ht.trans_lt hn)] at hc' hh' ⊢
      rw [loadedBy_roundStep, List.append_nil]
      exact .running hc' (hh'.trans hh)
    · obtain rfl : n = 64 := by omega
      rw [hc.step_eq_foldStep]
      exact fold hc hh

end Chained

/-! ### Every run of a message -/

/-- `P` holds where a message begins, and every operation of a run keeps it, beside the blocks LOADed so far. -/
structure RunInvariant (P : CoreState → List (Vector Word 16) → Prop) : Prop where
  reset : P CoreState.reset []
  init (c : CoreState) : P (initCore c) []
  push {c : CoreState} {l : List (Vector Word 16)} {nb : Nat} : P c l → c.busy = false → c.done = false →
    lengthFits nb c = true → nb ≤ 4 → P (pushBytes nb c) (l ++ loadedBy c (pushBytes nb c))
  finish {c : CoreState} {l : List (Vector Word 16)} : P c l → c.busy = false → c.done = false →
    P (padFinal c) (l ++ loadedBy c (padFinal c))
  core {c : CoreState} {l : List (Vector Word 16)} : P c l → P (sequencerStep c) (l ++ loadedBy c (sequencerStep c))
  writeDin {c : CoreState} {l : List (Vector Word 16)} (x : Word) : P c l → P (writeDin x c) l
  raise {c : CoreState} {l : List (Vector Word 16)} (e : ErrorFlag) : P c l → P (raiseError e c) l

/-- Such a `P` holds all along a run. -/
theorem RunInvariant.holds {P : CoreState → List (Vector Word 16) → Prop} (hP : RunInvariant P) {c : CoreState}
    {m : List Byte} {closed : Bool} {l : List (Vector Word 16)} (h : MessageRun c m closed l) : P c l := by
  induction h with
  | reset hc => exact hc ▸ hP.reset
  | init hi hx =>
    rw [exec_command_core hi hx]
    exact hP.init _
  | push _ hi ha hx ih =>
    obtain ⟨hb, he, hd, hl⟩ := accepted_push_iff.mp ha
    rw [exec_command_core hi hx, performCommand_push hb he hd hl]
    exact hP.push ih hb hd hl (commandOf_push_range hi).2
  | finish _ hi ha hx ih =>
    obtain ⟨hb, he, hd⟩ := accepted_finish_iff.mp ha
    rw [exec_command_core hi hx, performCommand_finish hb he hd]
    exact hP.finish ih hb hd
  | core _ ih => exact hP.core ih
  | other _ hi ha hx ih =>
    rcases exec_dropped hi ha hx with e | ⟨x, e⟩ | ⟨f, e⟩ <;> rw [e]
    · exact ih
    · exact hP.writeDin x ih
    · exact hP.raise f ih

/-- R193: `H` is the chaining value of the blocks LOADed. -/
theorem runInvariant_chained : RunInvariant Chained where
  reset := .idle rfl rfl
  init _ := .idle rfl rfl
  push h hb _ _ h4 := h.push hb h4
  finish h hb _ := h.finish hb
  core h := h.core
  writeDin _ h := h.of_same rfl rfl rfl rfl rfl
  raise _ h := h.of_same (by simp) (by simp) (by simp) (by simp) (by simp)

theorem coreInv_sequencerStep {c : CoreState} (hc : CoreInv c) : CoreInv (sequencerStep c) := by
  rcases sequencerStep_cases c with ⟨-, e⟩ | ⟨hb, ht, e⟩ | ⟨hb, -, e⟩ <;> rw [e]
  · exact hc
  · exact coreInv_roundStep hb ht hc
  · exact coreInv_foldStep hb hc

/-- R37, whatever has been LOADed. -/
theorem runInvariant_coreInv : RunInvariant fun c _ => CoreInv c where
  reset := coreInv_reset
  init := coreInv_initCore
  push h hb hd hl h4 := coreInv_pushBytes h4 hb hd hl h
  finish h _ hd := coreInv_padFinal hd h
  core := coreInv_sequencerStep
  writeDin := coreInv_writeDin
  raise := coreInv_raiseError

/-- R152: LEN counts the bits of an open message. -/
theorem OpenHeld.length_le {c : CoreState} {m : List Byte} {l : List (Vector Word 16)} (h : OpenHeld c m l) :
    m.length ≤ 2 ^ 61 - 1 := by
  have hlen := h.len
  omega

/-- R152: no run has a longer message, for a message grows only while it is open. -/
theorem MessageRun.length_le {c : CoreState} {m : List Byte} {closed : Bool} {l : List (Vector Word 16)}
    (h : MessageRun c m closed l) : m.length ≤ 2 ^ 61 - 1 := by
  induction h with
  | reset | init => simp
  | push hrun hi ha hx _ => exact OpenHeld.length_le (hrun.push hi ha hx).held
  | finish _ _ _ _ ih | core _ ih | other _ _ _ _ ih => exact ih

/-- R221, R226: RD DIGESTi returns `H[i]`. -/
theorem exec_rdDigest (i : Fin 8) (s : State) : exec (.rdDigest i) s = .next { s with rdata := s.core.h.get i } := by
  fin_cases i <;> rfl

/-- Settles O58: DONE means that CORE is idle with no block to come, so `H` is the chaining value of all of `pad(m)`. -/
theorem doneMeansTheDigestOfTheMessage : Obligations.DoneMeansTheDigestOfTheMessage := fun s m l h hd => by
  obtain ⟨hidle, hdone, -⟩ := runInvariant_coreInv.holds h
  have hbusy := hdone hd
  have htail := (hidle hbusy).2
  obtain ⟨hloaded, -⟩ : ClosedHeld s.core m l := h.held
  have hdigest : s.core.h = digest m := by
    rw [(runInvariant_chained.holds h).h_of_idle hbusy, hloaded, htail, chainWords_firstBlocks, digest, pad_length_div]
    rfl
  exact ⟨h.length_le, hdigest, fun i => hdigest ▸ exec_rdDigest i s⟩

end Sys2Proof.Machine

namespace Sys2Proof

/-! ### The rendering of a digest (R198) -/

/-- Digit `k` of a word. -/
def hexDigitAt (x : Word) (k : Nat) : Char := hexDigit (x.extractLsb' (28 - 4 * k) 4).toNat

/-- A digit is the character at the place of its value. -/
theorem getElem?_hexDigitAt (x : Word) (k : Nat) :
    "0123456789abcdef".toList[(x.extractLsb' (28 - 4 * k) 4).toNat]? = some (hexDigitAt x k) := by
  have hlt : (x.extractLsb' (28 - 4 * k) 4).toNat < "0123456789abcdef".toList.length := BitVec.isLt _
  rw [hexDigitAt, hexDigit, List.getD_eq_getElem _ _ hlt, List.getElem?_eq_getElem hlt]

theorem hex8_eq_ofFn (x : Word) : hex8 x = List.ofFn fun k : Fin 8 => hexDigitAt x k := by
  rw [hex8, ← List.map_coe_finRange_eq_range, List.map_map, List.ofFn_eq_map]
  rfl

/-- The digits of a digest, eight to a word. -/
theorem renderDigest_eq_ofFn (x : Words8) :
    renderDigest x = List.ofFn fun p : Fin (8 * 8) => hexDigitAt (x.get p.divNat) p.modNat := by
  have hwords : ∀ i : Fin 8, hex8 (x.get i) =
      List.ofFn fun k : Fin 8 => hexDigitAt (x.get (Fin.mkDivMod i k).divNat) (Fin.mkDivMod i k).modNat := fun i => by
    simp only [hex8_eq_ofFn, Fin.divNat_mkDivMod, Fin.modNat_mkDivMod]
  rw [renderDigest, List.ofFn_mul', List.flatMap_def, ← List.ofFn_eq_map]
  simp only [hwords]
  rfl

/-- Digit `k` of word `i` stands at its place. -/
theorem renderDigest_getElem? (x : Words8) (i k : Fin 8) :
    (renderDigest x)[8 * i.val + k.val]? = some (hexDigitAt (x.get i) k.val) := by
  rw [renderDigest_eq_ofFn, ← Fin.coe_mkDivMod, List.getElem?_ofFn, dif_pos (Fin.isLt _), Fin.eta,
    Fin.divNat_mkDivMod, Fin.modNat_mkDivMod]

/-- Settles O48: the digits of `renderDigest_eq_ofFn`, each one of the sixteen characters. -/
theorem digestRendersAsSixtyFourHexDigits : Obligations.DigestRendersAsSixtyFourHexDigits := fun x => by
  refine ⟨?_, fun ch hch => ?_, fun i k hk => ?_⟩
  · rw [renderDigest_eq_ofFn, List.length_ofFn]
  · rw [renderDigest_eq_ofFn] at hch
    obtain ⟨p, rfl⟩ := List.mem_ofFn.mp hch
    exact List.mem_of_getElem? (getElem?_hexDigitAt _ _)
  · rw [renderDigest_getElem? x i ⟨k, hk⟩, getElem?_hexDigitAt]

end Sys2Proof
end

-- The statements of spec/44_host_interface.md: what each access answers, and how the accesses, the core steps and the
-- messages stand to each other.
section

namespace Sys2Proof.Machine

/-! ### What each access answers (R221, R229 to R233) -/

theorem commandOf_of_mem_init {i : Instr} (h : i ∈ [Instr.init, .wrCtrl 0x00000001]) : commandOf i = some .init := by
  have hrows : ∀ row ∈ [Instr.init, .wrCtrl 0x00000001], commandOf row = some .init := by decide
  exact hrows i h

theorem commandOf_of_mem_nop {i : Instr} (h : i ∈ [Instr.nop, .wrCtrl 0x00000000]) : commandOf i = some .nop := by
  have hrows : ∀ row ∈ [Instr.nop, .wrCtrl 0x00000000], commandOf row = some .nop := by decide
  exact hrows i h

/-- R230: WR DIN on CORE's state. -/
theorem exec_wrDin_core {x : Word} {s t : State} (h : exec (.wrDin x) s = .next t) : t.core = writeDin x s.core := by
  cases h
  rfl

/-- R221, R229: every access that is neither a command nor WR DIN leaves CORE's state. -/
theorem exec_keeps_core {i : Instr} {s t : State} (hc : commandOf i = none) (hw : ∀ x, i ≠ .wrDin x)
    (h : exec i s = .next t) : t.core = s.core := by
  rcases exec_core h with e | ⟨x, hi, -⟩ | ⟨cmd, hi, -⟩
  · exact e
  · exact absurd hi (hw x)
  · simp [hc] at hi

/-! ### The STATUS word (R32) -/

theorem getLsbD_flagWord (b : Bool) (i : Nat) : (flagWord b).getLsbD i = (decide (i = 0) && b) := by
  cases b <;> simp [flagWord]

/-- Bit by bit: BCNT from bit 8 on, and each flag at its place. -/
theorem getLsbD_statusWord (c : CoreState) {i : Nat} (hi : i < 32) :
    (statusWord c).getLsbD i =
      (decide (8 ≤ i) && c.bcnt.val.testBit (i - 8) || decide (i = 5) && c.errLen || decide (i = 4) && c.errSeq ||
        decide (i = 3) && c.errBusy || decide (i = 2) && c.errCmd || decide (i = 1) && c.done ||
        decide (i = 0) && c.busy) := by
  have hplace (n : Nat) (b : Bool) : (flagWord b <<< n).getLsbD i = (decide (i = n) && b) := by
    rw [BitVec.getLsbD_shiftLeft, getLsbD_flagWord]
    by_cases h : i = n
    · subst h
      simp [hi]
    · by_cases hlt : i < n
      · simp [h, hlt]
      · simp [h, show i - n ≠ 0 by omega]
  have hcount : (BitVec.ofNat 32 c.bcnt.val <<< 8).getLsbD i = (decide (8 ≤ i) && c.bcnt.val.testBit (i - 8)) := by
    rw [BitVec.getLsbD_shiftLeft, BitVec.getLsbD_ofNat]
    by_cases h : 8 ≤ i
    · simp [h, hi, show ¬ i < 8 by omega, show i - 8 < 32 by omega]
    · simp [h, show i < 8 by omega]
  simp only [statusWord, BitVec.getLsbD_or, hcount, hplace, getLsbD_flagWord]

/-- From bit 8 on there is BCNT alone. -/
theorem getLsbD_statusWord_of_ge (c : CoreState) {i : Nat} (h8 : 8 ≤ i) (hi : i < 32) :
    (statusWord c).getLsbD i = c.bcnt.val.testBit (i - 8) := by
  have hflag (k : Nat) (hk : k < 8) : decide (i = k) = false := decide_eq_false (by omega)
  rw [getLsbD_statusWord c hi]
  simp (disch := omega) only [hflag, h8, decide_true, Bool.true_and, Bool.false_and, Bool.or_false]

theorem statusWord_initCore (c : CoreState) : statusWord (initCore c) = 0 := by
  simp [statusWord, flagWord]

/-- R23: BCNT has no bit from its sixth on. -/
theorem testBit_bcnt_of_ge {c : CoreState} {j : Nat} (hj : 6 ≤ j) : c.bcnt.val.testBit j = false :=
  Nat.testBit_lt_two_pow (c.bcnt.isLt.trans_le (Nat.pow_le_pow_right (n := 2) (by decide) hj))

theorem statusWord_extract_bcnt (c : CoreState) : (statusWord c).extractLsb' 8 7 = BitVec.ofNat 7 c.bcnt.val :=
  BitVec.eq_of_getLsbD_eq fun i hi => by
    rw [BitVec.getLsbD_extractLsb', BitVec.getLsbD_ofNat, getLsbD_statusWord_of_ge c (by omega) (by omega),
      Nat.add_sub_cancel_left]

theorem statusWord_extract_low_reserved (c : CoreState) : (statusWord c).extractLsb' 6 2 = 0 :=
  BitVec.eq_of_getLsbD_eq fun i hi => by
    rw [BitVec.getLsbD_extractLsb', getLsbD_statusWord c (by omega)]
    interval_cases i <;> simp

theorem statusWord_extract_high_reserved (c : CoreState) : (statusWord c).extractLsb' 15 17 = 0 :=
  BitVec.eq_of_getLsbD_eq fun i hi => by
    rw [BitVec.getLsbD_extractLsb', getLsbD_statusWord_of_ge c (by omega) (by omega), testBit_bcnt_of_ge (by omega)]
    simp

/-! ### Accesses that commute with core steps (R241) -/

/-- What leaves BUSY and t and commutes with ROUND and FOLD commutes with the sequencer's step. -/
theorem sequencerStep_commute {f : CoreState → CoreState} (hb : ∀ c, (f c).busy = c.busy) (ht : ∀ c, (f c).t = c.t)
    (hround : ∀ c (h : c.t.val < 64) (h' : (f c).t.val < 64), roundStep (f c) h' = f (roundStep c h))
    (hfold : ∀ c, foldStep (f c) = f (foldStep c)) (c : CoreState) : sequencerStep (f c) = f (sequencerStep c) := by
  rcases sequencerStep_cases c with ⟨hidle, e⟩ | ⟨hbusy, h, e⟩ | ⟨hbusy, h, e⟩ <;> rw [e]
  · exact sequencerStep_idle ((hb c).trans hidle)
  · have h' : (f c).t.val < 64 := by rw [ht]; exact h
    rw [sequencerStep_round ((hb c).trans hbusy) h', hround c h h']
  · rw [sequencerStep_fold ((hb c).trans hbusy) (by rw [ht]; exact h), hfold]

/-- R230: no core step reads or writes DIN. -/
theorem sequencerStep_writeDin (x : Word) (c : CoreState) :
    sequencerStep (writeDin x c) = writeDin x (sequencerStep c) := by
  refine sequencerStep_commute (f := writeDin x) (writeDin_busy x) (writeDin_t x) (fun _ _ _ => rfl) (fun c => ?_) c
  rcases foldStep_cases c with ⟨hT, -⟩ | ⟨hT, -⟩ | ⟨hT, -⟩ <;> simp [foldStep, writeDin, load, hT]

/-- R28: no core step reads or writes an error flag. -/
theorem sequencerStep_raiseError (e : ErrorFlag) (c : CoreState) :
    sequencerStep (raiseError e c) = raiseError e (sequencerStep c) := by
  refine sequencerStep_commute (f := raiseError e) (raiseError_busy e) (raiseError_t e) (fun c _ _ => ?_) (fun c => ?_) c
  · cases e <;> rfl
  · rcases foldStep_cases c with ⟨hT, -⟩ | ⟨hT, -⟩ | ⟨hT, -⟩ <;> cases e <;> simp [foldStep, raiseError, load, hT]

/-! ### The core steps that are left (R199, R245) -/

/-- The core steps until BUSY falls: the rest of the block in flight, and the second padding block if there is one. -/
def stepsLeft (c : CoreState) : Nat := 65 - c.t.val + if c.tail = .pad2 then 65 else 0

theorem stepsLeft_pos (c : CoreState) : 0 < stepsLeft c := by
  rw [stepsLeft]
  omega

theorem stepsLeft_of_same {c d : CoreState} (ht : d.t = c.t) (hT : d.tail = c.tail) : stepsLeft d = stepsLeft c := by
  rw [stepsLeft, stepsLeft, ht, hT]

theorem stepsLeft_roundStep (c : CoreState) (h : c.t.val < 64) : stepsLeft (roundStep c h) + 1 = stepsLeft c := by
  have hround : stepsLeft (roundStep c h) = 65 - (c.t.val + 1) + if c.tail = .pad2 then 65 else 0 := rfl
  rw [hround, stepsLeft]
  omega

theorem stepsLeft_foldStep_pad2 {c : CoreState} (ht : c.t.val = 64) (hT : c.tail = .pad2) :
    stepsLeft (foldStep c) + 1 = stepsLeft c := by
  simp [stepsLeft, ht, hT]

/-- A core step while `BUSY = 1` is the last one, or leaves one less. -/
theorem sequencerStep_busy_cases {c : CoreState} (hb : c.busy = true) :
    (stepsLeft c = 1 ∧ (sequencerStep c).busy = false ∧ (sequencerStep c).tail = .none) ∨
    ((sequencerStep c).busy = true ∧ stepsLeft (sequencerStep c) + 1 = stepsLeft c) := by
  rcases sequencerStep_cases c with ⟨hidle, -⟩ | ⟨-, ht, e⟩ | ⟨-, ht, e⟩
  · simp [hb] at hidle
  · rw [e]
    exact .inr ⟨hb, stepsLeft_roundStep c ht⟩
  · rw [e]
    by_cases hT : c.tail = .pad2
    · exact .inr ⟨by simp [hT], stepsLeft_foldStep_pad2 ht hT⟩
    · exact .inl ⟨by simp [stepsLeft, ht, hT], by simp [hT], by simp [hT]⟩

/-- The sequencer is busy for the steps that are left, and idle with `TAIL = NONE` after them. -/
theorem sequencerStep_iterate_stepsLeft {c : CoreState} {n : Nat} (hb : c.busy = true) (hn : n = stepsLeft c) :
    (∀ k, k < n → (sequencerStep^[k] c).busy = true) ∧
      (sequencerStep^[n] c).busy = false ∧ (sequencerStep^[n] c).tail = .none := by
  induction n generalizing c with
  | zero => exact absurd hn.symm (stepsLeft_pos c).ne'
  | succ n ih =>
    obtain ⟨hlater, hend⟩ : (∀ k, k < n → (sequencerStep^[k] (sequencerStep c)).busy = true) ∧
        (sequencerStep^[n] (sequencerStep c)).busy = false ∧ (sequencerStep^[n] (sequencerStep c)).tail = .none := by
      rcases sequencerStep_busy_cases hb with ⟨hone, hidle, htail⟩ | ⟨hbusy, hless⟩
      · obtain rfl : n = 0 := by omega
        exact ⟨fun k hk => absurd hk (Nat.not_lt_zero k), hidle, htail⟩
      · exact ih hbusy (by omega)
    refine ⟨fun k hk => ?_, hend⟩
    cases k with
    | zero => exact hb
    | succ k => exact hlater k (by omega)

/-- FINISH's last block is in flight or still to come, or DONE is set (R27, R30). -/
def Closing (c : CoreState) : Prop := c.done = true ∨ c.tail ≠ .none

/-- R196: FOLD turns `TAIL = PAD2` into `LAST`, and `LAST` into DONE. -/
theorem closing_sequencerStep (c : CoreState) : Closing (sequencerStep c) ↔ Closing c := by
  rcases sequencerStep_cases c with ⟨-, e⟩ | ⟨-, ht, e⟩ | ⟨-, -, e⟩ <;> rw [e]
  · exact Iff.rfl
  · cases hT : c.tail <;> simp [Closing, hT]

theorem closing_iterate (c : CoreState) (n : Nat) : Closing (sequencerStep^[n] c) ↔ Closing c := by
  induction n with
  | zero => rfl
  | succ n ih => rw [Function.iterate_succ_apply', closing_sequencerStep, ih]

/-! ### Fair runs (R245) -/

/-- Only core steps change the number that is left, as long as BUSY stays 1. -/
theorem CoreChange.stepsLeft_le {s : State} {d : CoreState} (h : CoreChange s d) (hb : s.core.busy = true)
    (hd : d.busy = true) : stepsLeft d ≤ stepsLeft s.core := by
  cases h with
  | keep => exact le_rfl
  | reset _ => cases hd
  | init _ => cases hd
  | round ht => exact Nat.le_of_succ_le (stepsLeft_roundStep s.core ht).le
  | fold _ _ ht => exact Nat.le_of_succ_le (stepsLeft_foldStep_pad2 ht (by simpa using hd)).le
  | din | raise => exact (stepsLeft_of_same (by simp) (by simp)).le
  | push _ _ _ hidle => simp [hb] at hidle
  | finish _ hidle => simp [hb] at hidle

/-- The sequencer's turn. -/
theorem step_of_core {s : State} (hn : nextTurn s = .core) : step s = .next (coreTurn (takeTurn s)) := by
  rw [step, hn, takeStep]

/-- The sequencer's turn leaves fewer. -/
theorem stepsLeft_lt_of_core {s t : State} (hn : nextTurn s = .core) (h : step s = .next t) (hb : s.core.busy = true)
    (ht : t.core.busy = true) : stepsLeft t.core < stepsLeft s.core := by
  rw [step_of_core hn] at h
  cases h
  rcases sequencerStep_busy_cases hb with ⟨-, hidle, -⟩ | ⟨-, hless⟩
  · simp [hidle] at ht
  · exact Nat.lt_of_succ_le hless.le

section Run

variable {run : Nat → State} (hrun : ∀ i, step (run i) = .next (run (i + 1)))
include hrun

/-- While turns are listed, the first is taken and the others stay. -/
theorem run_turns_cons {n : Nat} {turn : Turn} {l : List Turn} (h : (run n).sched.turns = turn :: l) :
    nextTurn (run n) = turn ∧ (run (n + 1)).sched.turns = l := by
  rw [step_sched (hrun n), nextTurn]
  rcases (run n).sched.first_rest with ⟨e, -⟩ | ⟨e, -⟩ <;> rw [h] at e
  · exact ⟨(List.cons.inj e).1.symm, (List.cons.inj e).2.symm⟩
  · cases e

/-- The listed turns are used up at last. -/
theorem run_exhausts_turns (n : Nat) : ∃ i, n ≤ i ∧ (run i).sched.turns = [] := by
  induction h : (run n).sched.turns generalizing n with
  | nil => exact ⟨n, le_rfl, h⟩
  | cons turn l ih =>
    obtain ⟨i, hi, e⟩ := ih (n + 1) (run_turns_cons hrun h).2
    exact ⟨i, by omega, e⟩

/-- A listed turn of the sequencer is taken at last. -/
theorem run_takes_listed_core {n : Nat} (hmem : Turn.core ∈ (run n).sched.turns) :
    ∃ i, n ≤ i ∧ nextTurn (run i) = .core := by
  induction h : (run n).sched.turns generalizing n with
  | nil => simp [h] at hmem
  | cons turn l ih =>
    obtain ⟨hturn, hl⟩ := run_turns_cons hrun h
    rw [h] at hmem
    cases hmem with
    | head => exact ⟨n, le_rfl, hturn⟩
    | tail _ hmem =>
      obtain ⟨i, hi, e⟩ := ih (hl ▸ hmem) hl
      exact ⟨i, by omega, e⟩

/-- R245: the sequencer's turn comes again, at the latest at the end of the next batch. -/
theorem run_core_turn (n : Nat) : ∃ i, n ≤ i ∧ nextTurn (run i) = .core := by
  obtain ⟨i, hi, hempty⟩ := run_exhausts_turns hrun n
  have hbatch : Turn.core ∈ (run i).sched.first :: (run i).sched.rest.turns := by
    rcases (run i).sched.first_rest with ⟨e, -⟩ | ⟨-, e, -⟩
    · simp [hempty] at e
    · simp [e]
  rw [← step_sched (hrun i)] at hbatch
  rcases List.mem_cons.mp hbatch with hfirst | hlater
  · exact ⟨i, hi, hfirst.symm⟩
  · obtain ⟨j, hj, e⟩ := run_takes_listed_core hrun hlater
    exact ⟨j, by omega, e⟩

/-- R245: were BUSY 1 for ever, the steps left would fall below their least value. -/
theorem run_idle (n : Nat) : ∃ i, n ≤ i ∧ (run i).core.busy = false := by
  by_contra hne
  have hbusy (j : Nat) : (run (n + j)).core.busy = true := by
    by_contra hidle
    exact hne ⟨n + j, by omega, by simpa using hidle⟩
  have hanti : Antitone fun j => stepsLeft (run (n + j)).core :=
    antitone_nat_of_succ_le fun j => (step_coreChange (hrun (n + j))).stepsLeft_le (hbusy j) (hbusy (j + 1))
  obtain ⟨j, hmin⟩ : ∃ j, ∀ k, stepsLeft (run (n + j)).core ≤ stepsLeft (run (n + k)).core :=
    ⟨_, fun k => Function.argmin_le (fun j => stepsLeft (run (n + j)).core) k⟩
  obtain ⟨i, hi, hcore⟩ := run_core_turn hrun (n + j)
  obtain ⟨k, rfl⟩ : ∃ k, i = n + k := ⟨i - n, by omega⟩
  have hlt : stepsLeft (run (n + (k + 1))).core < stepsLeft (run (n + k)).core :=
    stepsLeft_lt_of_core hcore (hrun (n + k)) (hbusy k) (hbusy (k + 1))
  exact absurd (hmin (k + 1)) (Nat.not_le.mpr (hlt.trans_le (hanti (by omega))))

end Run

/-! ### Messages (R18) -/

theorem accepted_eq_false {c : CoreState} (h : c.busy = true ∨ c.done = true) (cmd : Command) :
    accepted cmd c = false := by
  cases cmd with
  | nop | init | illegal => rfl
  | push | finish => rcases h with h | h <;> simp [accepted, h]

/-- R156: FINISH leaves a TAIL pending, which core steps alone turn into DONE. -/
theorem MessageRun.closing {c : CoreState} {m : List Byte} {l : List (Vector Word 16)}
    (h : MessageRun c m true l) : Closing c := by
  generalize hclosed : true = closed at h
  induction h with
  | reset | init | push => cases hclosed
  | finish _ hi ha hx _ =>
    obtain ⟨hb, he, hd⟩ := accepted_finish_iff.mp ha
    rw [exec_command_core hi hx, performCommand_finish hb he hd]
    refine .inr ?_
    rw [padFinal_tail]
    split <;> simp
  | core _ ih => exact (closing_sequencerStep _).mpr (ih hclosed)
  | other _ hi ha hx ih =>
    rcases exec_dropped hi ha hx with e | ⟨x, e⟩ | ⟨f, e⟩ <;> rw [e]
    · exact ih hclosed
    · exact ih hclosed
    · simpa [Closing] using ih hclosed

/-- R263: a closed message accepts no further command, for CORE is busy with it or done. -/
theorem MessageRun.closed_accepts_none {c : CoreState} {m : List Byte} {l : List (Vector Word 16)}
    (h : MessageRun c m true l) (cmd : Command) : accepted cmd c = false := by
  obtain ⟨-, -, htail, -⟩ := runInvariant_coreInv.holds h
  exact accepted_eq_false (h.closing.symm.imp_left fun hT => (htail hT).1) cmd

/-- What an access does to a run of messages. -/
theorem MessageRun.access {i : Instr} {s t : State} {m : List Byte} {closed : Bool} {l : List (Vector Word 16)}
    (h : MessageRun s.core m closed l) (hx : exec i s = .next t) :
    (∃ l', MessageRun t.core m closed l') ∨
    (commandOf i = some .finish ∧ ∃ l', MessageRun t.core m true l') ∨
    (closed = false ∧ ∃ nb l', commandOf i = some (.push nb) ∧
      MessageRun t.core (m ++ dinBytes nb s.core.din) false l') ∨
    (commandOf i = some .init ∧ MessageRun t.core [] false []) := by
  by_cases hinit : commandOf i = some .init
  · exact .inr (.inr (.inr ⟨hinit, .init hinit hx⟩))
  by_cases hdrop : ∀ cmd, commandOf i = some cmd → accepted cmd s.core = false
  · exact .inl ⟨l, .other h hinit hdrop hx⟩
  simp only [not_forall, Bool.not_eq_false] at hdrop
  obtain ⟨cmd, hc, ha⟩ := hdrop
  obtain rfl : closed = false := by
    by_contra hclosed
    obtain rfl : closed = true := by simpa using hclosed
    simp [h.closed_accepts_none cmd] at ha
  cases cmd with
  | nop | init | illegal => cases ha
  | push nb => exact .inr (.inr (.inl ⟨rfl, nb, _, hc, .push h hc ha hx⟩))
  | finish => exact .inr (.inl ⟨hc, _, .finish h hc ha hx⟩)

/-! ### The obligations -/

/-- Settles O59: a step is an access, a core step, a reset, or leaves CORE, and a run has a rule for each. -/
theorem everyStepContinuesAMessageRun : Obligations.EveryStepContinuesAMessageRun := fun s t m closed l h hs => by
  rcases step_core hs with ⟨i, u, v, -, hx, hu, hv, -, hcmd⟩ | ⟨-, e⟩ | ⟨hn, e⟩ | ⟨-, e⟩
  · rw [← hu] at h
    rw [← hv, ← hu]
    rcases h.access hx with ⟨l', h'⟩ | ⟨hc, l', h'⟩ | ⟨hopen, nb, l', hc, h'⟩ | ⟨hc, h'⟩
    · exact ⟨m, closed, l', h', .inl ⟨rfl, .inl rfl⟩⟩
    · exact ⟨m, true, l', h', .inl ⟨rfl, .inr (hcmd _ hc)⟩⟩
    · exact ⟨_, false, l', h', .inr (.inl ⟨hopen, rfl, nb, hcmd _ hc, rfl⟩)⟩
    · exact ⟨[], false, [], h', .inr (.inr ⟨rfl, rfl, .inr (hcmd _ hc)⟩)⟩
  · rw [e]
    exact ⟨m, closed, _, .core h, .inl ⟨rfl, .inl rfl⟩⟩
  · exact ⟨[], false, [], .reset e, .inr (.inr ⟨rfl, rfl, .inl hn⟩)⟩
  · exact ⟨m, closed, l, e ▸ h, .inl ⟨rfl, .inl rfl⟩⟩

/-- Settles O41: the steps left are counted down by core steps alone, and a run is fair to the sequencer. -/
theorem busySequencerGoesIdle : Obligations.BusySequencerGoesIdle := by
  refine ⟨fun c n hb hn => ?_, fun run hrun n => ⟨run_core_turn hrun n, run_idle hrun n⟩⟩
  obtain ⟨hbusy, hidle, htail⟩ := sequencerStep_iterate_stepsLeft hb hn
  refine ⟨hbusy, hidle, htail, ?_⟩
  have hclosing := closing_iterate c n
  rwa [Closing, htail, ne_self_iff_false, or_false] at hclosing

/-- Settles O42: such an access leaves CORE, writes DIN or raises ERR_CMD, and each of the three commutes. -/
theorem harmlessAccessCommutesWithACoreStep : Obligations.HarmlessAccessCommutesWithACoreStep :=
  fun s t u i hi ht hu => by
  rw [coreTurn_core]
  rcases hi with hc | hc | hc
  · by_cases hw : ∃ x, i = .wrDin x
    · obtain ⟨x, rfl⟩ := hw
      rw [exec_wrDin_core ht, exec_wrDin_core hu]
      exact sequencerStep_writeDin x s.core
    · have hw' : ∀ x, i ≠ .wrDin x := fun x h => hw ⟨x, h⟩
      rw [exec_keeps_core hc hw' ht, exec_keeps_core hc hw' hu]
      rfl
  · rw [exec_command_core hc ht, exec_command_core hc hu]
    rfl
  · rw [exec_command_core hc ht, exec_command_core hc hu]
    exact sequencerStep_raiseError .cmd s.core

/-- Settles O54: DONE falls by INIT and reset alone, and a FOLD, the other writer of H, wants `BUSY = 1`. -/
theorem digestIsStableAfterDone : Obligations.DigestIsStableAfterDone := fun s t hinv hd hs hreset hinit => by
  have hchange := step_coreChange hs
  obtain ⟨-, hidle, -⟩ := hinv
  constructor
  · by_contra hfall
    exact (hchange.done_falls hd (by simpa using hfall)).elim hreset hinit
  · by_contra hne
    rcases hchange.h_writers hne with h | h | ⟨-, hb, -⟩
    · exact hreset h
    · exact hinit h
    · simp [hidle hd] at hb

/-- Settles O19: the bits of the STATUS word. -/
theorem statusReadsFieldByField : Obligations.StatusReadsFieldByField := fun s => by
  have hbcnt : ((statusWord s.core).extractLsb' 8 7).toNat = s.core.bcnt.val := by
    rw [statusWord_extract_bcnt, BitVec.toNat_ofNat, Nat.mod_eq_of_lt (by omega)]
  refine ⟨statusWord s.core, rfl, ?_, ?_, ?_, ?_, ?_, ?_, statusWord_extract_low_reserved s.core, hbcnt,
    statusWord_extract_high_reserved s.core⟩ <;>
    (rw [getLsbD_statusWord _ (by decide)]; simp)

/-- Settles O8: the CTRL write decodes to the row WR_CTRL, which does what the word's own row does. -/
theorem stepPerformsTheWrittenCommand : Obligations.StepPerformsTheWrittenCommand := fun _ v _ hn hop hi =>
  (step_wr hn hop (decodeAccess_slot true (k := 0) v (by decide))).trans (exec_wrCtrl_eq hi _)

/-- Settles O12: the sequencer's turn, and its step while idle. -/
theorem stepPerformsTheSequencerStep : Obligations.StepPerformsTheSequencerStep := fun _ hn =>
  ⟨step_of_core hn, sequencerStep_idle⟩

/-- Settles O15: both forms perform the command INIT. -/
theorem initBeginsANewMessage : Obligations.InitBeginsANewMessage := fun s _ hi =>
  ⟨_, exec_command (commandOf_of_mem_init hi) s, statusWord_initCore s.core, rfl⟩

/-- Settles O16: both forms perform the command NOP. -/
theorem nopHasNoEffect : Obligations.NopHasNoEffect := fun s _ hi => exec_command (commandOf_of_mem_nop hi) s

/-- Settles O17: each read returns its slot of the window. -/
theorem readsReturnTheirRegisters : Obligations.ReadsReturnTheirRegisters := fun _ =>
  ⟨rfl, rfl, rfl, rfl, rfl, rfl, rfl⟩

/-- Settles O18: RD DIGESTi returns `H[i]`, here word by word. -/
theorem digestReadsReturnTheHashState : Obligations.DigestReadsReturnTheHashState := fun s =>
  ⟨exec_rdDigest 0 s, exec_rdDigest 1 s, exec_rdDigest 2 s, exec_rdDigest 3 s, exec_rdDigest 4 s, exec_rdDigest 5 s,
    exec_rdDigest 6 s, exec_rdDigest 7 s⟩

/-- Settles O20: WR DIN is `writeDin`. -/
theorem dinWriteStoresTheWord : Obligations.DinWriteStoresTheWord := fun _ _ => rfl

/-- Settles O21: the row of each of these writes is ignored. -/
theorem otherWritesAreIgnored : Obligations.OtherWritesAreIgnored := fun s x k i hi => by
  fin_cases hi <;> rfl

/-- Settles O22: each of the four things an access can do answers a next state, and none touches the host or the
schedule. -/
theorem everyAccessIsAccepted : Obligations.EveryAccessIsAccepted := fun s i => by
  rcases exec_cases i s with ⟨_, h⟩ | ⟨_, h⟩ | ⟨_, _, h⟩ | ⟨_, h⟩ <;> exact ⟨_, h, rfl, rfl⟩

end Sys2Proof.Machine
end

-- The statements of spec/60_exceptions.md: what raises each error flag, what a dropped command leaves unchanged, and that
-- instances do not affect each other.
section

namespace Sys2Proof.Machine

/-! ### The checks of R231, one outcome each -/

section Checks

variable {fits : Bool} {act : CoreState → CoreState} {c : CoreState}

theorem checkedCommand_of_busy (hb : c.busy = true) : checkedCommand fits act c = raiseError .busy c := by
  simp [checkedCommand, hb]

theorem checkedCommand_of_errAny (hb : c.busy = false) (he : errAny c = true) : checkedCommand fits act c = c := by
  simp [checkedCommand, hb, he]

theorem checkedCommand_of_done (hb : c.busy = false) (he : errAny c = false) (hd : c.done = true) :
    checkedCommand fits act c = raiseError .seq c := by
  simp [checkedCommand, hb, he, hd]

theorem checkedCommand_of_not_fits (hb : c.busy = false) (he : errAny c = false) (hd : c.done = false)
    (hf : fits = false) : checkedCommand fits act c = raiseError .len c := by
  simp [checkedCommand, hb, he, hd, hf]

end Checks

/-- R264: the length check fails exactly past the bound. -/
theorem lengthFits_eq_false_iff {nb : Nat} {c : CoreState} :
    lengthFits nb c = false ↔ 2 ^ 64 - 1 < c.len.toNat + 8 * nb := by
  rw [lengthFits, decide_eq_false_iff_not, Nat.not_le, Config.maxLength]

/-- R231: every PUSH and FINISH passes the checks first. -/
theorem exec_checked {i : Instr} (h : i ∈ finishRows ∨ ∃ nb, (i, nb) ∈ pushRows) (s : State) :
    ∃ fits act, exec i s = .next { s with core := checkedCommand fits act s.core } := by
  rcases h with h | ⟨nb, h⟩
  · exact ⟨true, padFinal, exec_command (commandOf_of_mem_finishRows h) s⟩
  · exact ⟨lengthFits nb s.core, pushBytes nb, exec_command (commandOf_of_mem_pushRows h) s⟩

/-! ### What leaves the error flags as they are -/

@[simp] theorem errorFlag_pushByte (e : ErrorFlag) (x : Byte) (c : CoreState) :
    errorFlag e (pushByte x c) = errorFlag e c := by
  unfold pushByte; cases e <;> split <;> rfl

@[simp] theorem errorFlag_pushBytes (e : ErrorFlag) (nb : Nat) (c : CoreState) :
    errorFlag e (pushBytes nb c) = errorFlag e c := by
  induction nb with
  | zero => rw [pushBytes_zero]
  | succ n ih => rw [pushBytes_succ, errorFlag_pushByte, ih]

@[simp] theorem errorFlag_initCore (e : ErrorFlag) (c : CoreState) : errorFlag e (initCore c) = false := by
  cases e <;> rfl

/-! ### The cause of each flag (R260, R261, R263, R264) -/

/-- The command is one that R231 checks. -/
def IsPushOrFinish (cmd : Option Command) : Prop := cmd = some .finish ∨ ∃ nb, cmd = some (.push nb)

/-- The cause of each error flag: the command an access issues, if any, and CORE's state before it. -/
def ErrorCause (cmd : Option Command) (c : CoreState) : ErrorFlag → Prop
  | .cmd => cmd = some .illegal
  | .busy => IsPushOrFinish cmd ∧ c.busy = true
  | .seq => IsPushOrFinish cmd ∧ c.busy = false ∧ errAny c = false ∧ c.done = true
  | .len => ∃ nb, cmd = some (.push nb) ∧ c.busy = false ∧ errAny c = false ∧ c.done = false ∧
      2 ^ 64 - 1 < c.len.toNat + 8 * nb

/-- From `c` to `d` exactly the flag `e` was raised, by its cause. -/
def RaisedBy (cmd : Option Command) (c d : CoreState) (e : ErrorFlag) : Prop := ErrorCause cmd c e ∧ d = raiseError e c

/-- A flag newly up after raising `f` is `f`. -/
theorem eq_of_errorFlag_raiseError {e f : ErrorFlag} {c : CoreState} (h0 : errorFlag e c = false)
    (h1 : errorFlag e (raiseError f c) = true) : f = e := by
  simpa [h0] using h1

/-- R231, R270: the checks raise a flag only where they fail, and then no other. -/
theorem checkedCommand_raises {cmd : Option Command} {fits : Bool} {act : CoreState → CoreState} {c : CoreState}
    {e : ErrorFlag} (hcmd : IsPushOrFinish cmd) (hact : errorFlag e (act c) = errorFlag e c)
    (hfits : fits = false → ∃ nb, cmd = some (.push nb) ∧ 2 ^ 64 - 1 < c.len.toNat + 8 * nb)
    (h0 : errorFlag e c = false) (h1 : errorFlag e (checkedCommand fits act c) = true) :
    RaisedBy cmd c (checkedCommand fits act c) e := by
  rcases checkedCommand_cases fits act c with
    ⟨hb, h⟩ | ⟨_, _, h⟩ | ⟨hb, he, hd, h⟩ | ⟨_, _, _, _, h⟩ | ⟨hb, he, hd, hf, h⟩ <;> rw [h] at h1 ⊢
  · obtain rfl := eq_of_errorFlag_raiseError h0 h1
    exact ⟨⟨hcmd, hb⟩, rfl⟩
  · simp [h0] at h1
  · obtain rfl := eq_of_errorFlag_raiseError h0 h1
    exact ⟨⟨hcmd, hb, he, hd⟩, rfl⟩
  · simp [hact, h0] at h1
  · obtain rfl := eq_of_errorFlag_raiseError h0 h1
    obtain ⟨nb, hnb, hlong⟩ := hfits hf
    exact ⟨⟨nb, hnb, hb, he, hd, hlong⟩, rfl⟩

/-- R231: a command raises a flag only by its cause, and then no other. -/
theorem performCommand_raises {cmd : Command} {c : CoreState} {e : ErrorFlag} (h0 : errorFlag e c = false)
    (h1 : errorFlag e (performCommand cmd c) = true) : RaisedBy (some cmd) c (performCommand cmd c) e := by
  cases cmd with
  | illegal =>
    obtain rfl := eq_of_errorFlag_raiseError (f := .cmd) h0 h1
    exact ⟨rfl, rfl⟩
  | nop => simp [performCommand, h0] at h1
  | init => simp [performCommand] at h1
  | push nb =>
    exact checkedCommand_raises (.inr ⟨nb, rfl⟩) (errorFlag_pushBytes e nb c)
      (fun hf => ⟨nb, rfl, lengthFits_eq_false_iff.mp hf⟩) h0 h1
  | finish => exact checkedCommand_raises (.inl rfl) (errorFlag_padFinal e c) (fun hf => nomatch hf) h0 h1

/-- R270: an access raises a flag only by the flag's cause, and then no other. -/
theorem exec_raises {i : Instr} {s t : State} {e : ErrorFlag} (hx : exec i s = .next t)
    (h0 : errorFlag e s.core = false) (h1 : errorFlag e t.core = true) :
    RaisedBy (commandOf i) s.core t.core e := by
  rcases exec_core hx with h | ⟨x, -, h⟩ | ⟨cmd, hc, h⟩ <;> rw [h] at h1 ⊢
  · simp [h0] at h1
  · simp [h0] at h1
  · rw [hc]
    exact performCommand_raises h0 h1

/-! ### Several instances (R283) -/

/-- A transition at index `k` is a step of the machine there, put back in its place; an index past the end passes. -/
theorem systemStep_cases {k : Nat} {sys sys' : List State} (h : systemStep k sys = .next sys') :
    (sys[k]? = none ∧ sys' = sys) ∨ ∃ s t, sys[k]? = some s ∧ step s = .next t ∧ sys' = sys.set k t := by
  unfold systemStep at h
  split at h
  next hk =>
    cases h
    exact .inl ⟨hk, rfl⟩
  next s hk =>
    split at h
    next t hs =>
      cases h
      exact .inr ⟨s, t, hk, hs, rfl⟩
    next => cases h
    next => cases h

/-! ### The obligations -/

/-- Settles O28: an access that raises a flag has the flag's cause. -/
theorem eachErrorHasItsCause : Obligations.EachErrorHasItsCause := fun _ _ _ hx =>
  have cause (e : ErrorFlag) h0 h1 := (exec_raises (e := e) hx h0 h1).1
  ⟨cause .cmd, cause .busy, cause .seq, cause .len⟩

/-- Settles O29: an access that raises `e` does nothing else, so a flag it raises is `e`. -/
theorem oneCommandSetsAtMostOneFlag : Obligations.OneCommandSetsAtMostOneFlag := fun s t i e f hx he0 he1 hf0 hf1 => by
  obtain ⟨-, hraise⟩ := exec_raises hx he0 he1
  rw [hraise] at hf1
  exact eq_of_errorFlag_raiseError hf0 hf1

/-- Settles O23: an illegal word performs the command that raises ERR_CMD. -/
theorem illegalWordSetsErrCmd : Obligations.IllegalWordSetsErrCmd := fun s v hv =>
  exec_command (i := .wrCtrl v) (congrArg some hv) s

/-- Settles O24: the first check fails. -/
theorem busyCommandSetsErrBusy : Obligations.BusyCommandSetsErrBusy := fun s i hi hb => by
  obtain ⟨fits, act, h⟩ := exec_checked hi s
  rw [h, checkedCommand_of_busy hb]
  rfl

/-- Settles O25: the second check drops the command. -/
theorem errorDropsLaterCommands : Obligations.ErrorDropsLaterCommands := fun s i hi hb he => by
  obtain ⟨fits, act, h⟩ := exec_checked hi s
  rw [h, checkedCommand_of_errAny hb he]

/-- Settles O26: the third check fails. -/
theorem commandAfterDoneSetsErrSeq : Obligations.CommandAfterDoneSetsErrSeq := fun s i hi hb he hd => by
  obtain ⟨fits, act, h⟩ := exec_checked hi s
  rw [h, checkedCommand_of_done hb he hd]
  rfl

/-- Settles O27: the length check of the PUSH fails, the others having passed. -/
theorem tooLongPushSetsErrLen : Obligations.TooLongPushSetsErrLen := fun s i nb hi hb he hd hlong => by
  have hpush : performCommand (.push nb) s.core = raiseError .len s.core :=
    checkedCommand_of_not_fits hb he hd (lengthFits_eq_false_iff.mpr hlong)
  rw [exec_command (commandOf_of_mem_pushRows hi), hpush]
  rfl

/-- Settles O60: a list with one entry set has its length and its other entries. -/
theorem instancesAreIndependent : Obligations.InstancesAreIndependent := fun k j sys sys' h => by
  rcases systemStep_cases h with ⟨hk, rfl⟩ | ⟨s, t, hk, hs, rfl⟩
  · exact ⟨rfl, fun _ => rfl, fun s hs => by simp [hk] at hs⟩
  · obtain ⟨hlt, -⟩ := List.getElem?_eq_some_iff.mp hk
    refine ⟨List.length_set, fun hj => List.getElem?_set_ne hj.symm, fun s' hs' => ?_⟩
    obtain rfl : s = s' := Option.some.inj (hk.symm.trans hs')
    exact ⟨t, hs, List.getElem?_set_self hlt⟩

end Sys2Proof.Machine
end

-- The statements of spec/70_reset_and_hazards.md: what reset leaves, and that what it leaves unspecified is never
-- observed.
section

namespace Sys2Proof.Machine

/-! ### Reset (R290, R291) -/

/-- The platform's turn. -/
theorem step_of_reset {s : State} (hn : nextTurn s = .reset) : step s = .next (platformReset (takeTurn s)) := by
  rw [step, hn, takeStep]

/-! ### Agreement of two states of CORE, operation by operation (R21 to R23) -/

/-- `c` with other working variables, another window and another buffer. -/
def withUnspecified (c : CoreState) (v : Words8) (w : Vector Word 16) (buf : Block) : CoreState :=
  { c with v := v, w := w, buf := buf }

/-- A state that agrees with `c` is `c` with another V, W and BUF: the same V and W while BUSY, the same bytes below
BCNT. -/
theorem CoreAgree.eq_withUnspecified {c d : CoreState} (h : CoreAgree c d) :
    ∃ v w buf, d = withUnspecified c v w buf ∧ (c.busy = true → c.v = v ∧ c.w = w) ∧
      ∀ k : Fin 64, k < c.bcnt → c.buf[k] = buf[k] := by
  obtain ⟨hh, hbcnt, hdin, hlen, hbusy, hdone, hcmd, hbsy, hseq, herrLen, ht, htail, hvw, hbuf⟩ := h
  exact ⟨d.v, d.w, d.buf,
    by rw [withUnspecified, hh, hbcnt, hdin, hlen, hbusy, hdone, hcmd, hbsy, hseq, herrLen, ht, htail], hvw, hbuf⟩

/-- What does not depend on V, W and BUF is the same in states that agree. -/
theorem CoreAgree.observe_eq {α : Sort*} {c d : CoreState} (h : CoreAgree c d) (g : CoreState → α)
    (hg : ∀ c v w buf, g (withUnspecified c v w buf) = g c) : g d = g c := by
  obtain ⟨v, w, buf, rfl, -⟩ := h.eq_withUnspecified
  exact hg c v w buf

theorem coreAgree_withUnspecified {c : CoreState} {v : Words8} {w : Vector Word 16} {buf : Block}
    (hvw : c.busy = true → c.v = v ∧ c.w = w) (hbuf : ∀ k : Fin 64, k < c.bcnt → c.buf[k] = buf[k]) :
    CoreAgree c (withUnspecified c v w buf) :=
  ⟨rfl, rfl, rfl, rfl, rfl, rfl, rfl, rfl, rfl, rfl, rfl, rfl, hvw, hbuf⟩

theorem coreAgree_refl (c : CoreState) : CoreAgree c c := coreAgree_withUnspecified (fun _ => ⟨rfl, rfl⟩) fun _ _ => rfl

/-- `f` takes states that agree to states that agree. -/
def KeepsCoreAgree (f : CoreState → CoreState) : Prop := ∀ c d, CoreAgree c d → CoreAgree (f c) (f d)

theorem keepsCoreAgree_raiseError (e : ErrorFlag) : KeepsCoreAgree (raiseError e) := fun c d h => by
  obtain ⟨v, w, buf, rfl, hvw, hbuf⟩ := h.eq_withUnspecified
  cases e <;> exact coreAgree_withUnspecified hvw hbuf

theorem keepsCoreAgree_writeDin (x : Word) : KeepsCoreAgree (writeDin x) := fun c d h => by
  obtain ⟨v, w, buf, rfl, hvw, hbuf⟩ := h.eq_withUnspecified
  exact coreAgree_withUnspecified hvw hbuf

/-- R232: INIT leaves V, W and BUF, and after it none of them is specified. -/
theorem keepsCoreAgree_initCore : KeepsCoreAgree initCore := fun c d h => by
  obtain ⟨v, w, buf, rfl, -, -⟩ := h.eq_withUnspecified
  exact coreAgree_withUnspecified nofun nofun

/-- R154: a byte goes to place BCNT, the first unspecified one; when it is the last one the whole block is specified, and
LOAD writes V and W. -/
theorem keepsCoreAgree_pushByte (x : Byte) : KeepsCoreAgree (pushByte x) := fun c d h => by
  obtain ⟨v, w, buf, rfl, hvw, hbuf⟩ := h.eq_withUnspecified
  have hset : ∀ k : Fin 64, k.val < c.bcnt.val + 1 → (c.buf.set c.bcnt.val x)[k] = (buf.set c.bcnt.val x)[k] :=
    fun k hk => by
      change (c.buf.set _ _)[k.val] = (buf.set _ _)[k.val]
      rw [Vector.getElem_set, Vector.getElem_set]
      split
      next => rfl
      next hne => exact hbuf k (show k.val < c.bcnt.val by omega)
  by_cases hroom : c.bcnt.val + 1 < 64
  · rw [pushByte_room x c hroom, pushByte_room x (withUnspecified c v w buf) hroom]
    exact coreAgree_withUnspecified hvw hset
  · have hlast : c.bcnt.val = 63 := by omega
    have hblock : c.buf.set c.bcnt.val x = buf.set c.bcnt.val x := Vector.ext fun k hk => hset ⟨k, hk⟩ (by omega)
    rw [pushByte_fills x c hlast, pushByte_fills x (withUnspecified c v w buf) hlast, hblock]
    exact coreAgree_refl _

theorem keepsCoreAgree_pushBytes (nb : Nat) : KeepsCoreAgree (pushBytes nb) := fun c d h => by
  have hdin : d.din = c.din := h.observe_eq (·.din) fun _ _ _ _ => rfl
  induction nb with
  | zero => exact h
  | succ n ih =>
    rw [pushBytes_succ, pushBytes_succ, hdin]
    exact keepsCoreAgree_pushByte _ _ _ ih

/-- R156: the padded block keeps the bytes below BCNT only, and LOAD writes V and W. -/
theorem keepsCoreAgree_padFinal : KeepsCoreAgree padFinal := fun c d h => by
  obtain ⟨v, w, buf, rfl, -, hbuf⟩ := h.eq_withUnspecified
  have hbyte : paddedByte c = paddedByte (withUnspecified c v w buf) := funext fun k => by
    by_cases hk : k.val < c.bcnt.val
    · exact (if_pos hk).trans ((hbuf k hk).trans (if_pos hk).symm)
    · exact (if_neg hk).trans (if_neg hk).symm
  have hblock : padFinal (withUnspecified c v w buf) = padFinal c := by
    simp only [padFinal, ← hbyte]
    rfl
  rw [hblock]
  exact coreAgree_refl _

/-- R195: a ROUND is made while BUSY only, when V and W agree. -/
theorem coreAgree_roundStep {c d : CoreState} (h : CoreAgree c d) (hb : c.busy = true) (ht : c.t.val < 64)
    (ht' : d.t.val < 64) : CoreAgree (roundStep c ht) (roundStep d ht') := by
  obtain ⟨v, w, buf, rfl, hvw, hbuf⟩ := h.eq_withUnspecified
  obtain ⟨rfl, rfl⟩ := hvw hb
  exact coreAgree_withUnspecified (fun _ => ⟨rfl, rfl⟩) hbuf

/-- R196: FOLD neither reads nor writes BUF. -/
theorem foldStep_withUnspecified (c : CoreState) (buf : Block) :
    foldStep (withUnspecified c c.v c.w buf) = withUnspecified (foldStep c) (foldStep c).v (foldStep c).w buf := by
  rcases foldStep_cases c with ⟨hT, -⟩ | ⟨hT, -⟩ | ⟨hT, -⟩ <;> simp [foldStep, withUnspecified, load, hT]

theorem coreAgree_foldStep {c d : CoreState} (h : CoreAgree c d) (hb : c.busy = true) :
    CoreAgree (foldStep c) (foldStep d) := by
  obtain ⟨v, w, buf, rfl, hvw, hbuf⟩ := h.eq_withUnspecified
  obtain ⟨rfl, rfl⟩ := hvw hb
  rw [foldStep_withUnspecified]
  exact coreAgree_withUnspecified (fun _ => ⟨rfl, rfl⟩) (by simpa using hbuf)

/-- R240: an idle sequencer leaves V and W, and a busy one finds the same V and W in both states. -/
theorem keepsCoreAgree_sequencerStep : KeepsCoreAgree sequencerStep := fun c d h => by
  have hbusy : d.busy = c.busy := h.observe_eq (·.busy) fun _ _ _ _ => rfl
  have ht : d.t = c.t := h.observe_eq (·.t) fun _ _ _ _ => rfl
  rcases sequencerStep_cases c with ⟨hb, e⟩ | ⟨hb, hlt, e⟩ | ⟨hb, h64, e⟩ <;> rw [e]
  · rwa [sequencerStep_idle (hbusy.trans hb)]
  · have hlt' : d.t.val < 64 := by rwa [ht]
    rw [sequencerStep_round (hbusy.trans hb) hlt']
    exact coreAgree_roundStep h hb hlt hlt'
  · rw [sequencerStep_fold (hbusy.trans hb) (by rwa [ht])]
    exact coreAgree_foldStep h hb

/-- R231: the checks read no unspecified value. -/
theorem keepsCoreAgree_checkedCommand (fits : Bool) {act : CoreState → CoreState} (hact : KeepsCoreAgree act) :
    KeepsCoreAgree (checkedCommand fits act) := fun c d h => by
  have hbusy : d.busy = c.busy := h.observe_eq (·.busy) fun _ _ _ _ => rfl
  have herr : errAny d = errAny c := h.observe_eq errAny fun _ _ _ _ => rfl
  have hdone : d.done = c.done := h.observe_eq (·.done) fun _ _ _ _ => rfl
  unfold checkedCommand
  rw [hbusy, herr, hdone]
  split_ifs
  · exact keepsCoreAgree_raiseError .busy c d h
  · exact h
  · exact keepsCoreAgree_raiseError .seq c d h
  · exact hact c d h
  · exact keepsCoreAgree_raiseError .len c d h

theorem keepsCoreAgree_performCommand (cmd : Command) : KeepsCoreAgree (performCommand cmd) := fun c d h => by
  cases cmd with
  | illegal => exact keepsCoreAgree_raiseError .cmd c d h
  | nop => exact h
  | init => exact keepsCoreAgree_initCore c d h
  | push nb =>
    have hfits : lengthFits nb d = lengthFits nb c := h.observe_eq (lengthFits nb) fun _ _ _ _ => rfl
    rw [performCommand, performCommand, pushCommand, pushCommand, hfits]
    exact keepsCoreAgree_checkedCommand _ (keepsCoreAgree_pushBytes nb) c d h
  | finish => exact keepsCoreAgree_checkedCommand true keepsCoreAgree_padFinal c d h

/-- R221: no register of the window shows V, W or BUF. -/
theorem CoreAgree.windowRead_eq {c d : CoreState} (h : CoreAgree c d) (reg : Fin 16) :
    windowRead d reg = windowRead c reg :=
  h.observe_eq (windowRead · reg) fun _ _ _ _ => rfl

/-! ### Agreement of two whole states, turn by turn -/

/-- Two states that agree are one state with two states of CORE. -/
theorem Agree.eq_withCore {s t : State} (h : Agree s t) : ∃ d, CoreAgree s.core d ∧ t = { s with core := d } := by
  obtain ⟨hcore, hhost, hrdata, hsched⟩ := h
  exact ⟨t.core, hcore, by rw [hhost, hrdata, hsched]⟩

/-- What does not depend on CORE's state is the same in states that agree. -/
theorem Agree.observe_eq {α : Sort*} {s t : State} (h : Agree s t) (g : State → α)
    (hg : ∀ s d, g { s with core := d } = g s) : g t = g s := by
  obtain ⟨d, -, rfl⟩ := h.eq_withCore
  exact hg s d

theorem agree_withCore {s : State} {c d : CoreState} (h : CoreAgree c d) :
    Agree { s with core := c } { s with core := d } :=
  ⟨h, rfl, rfl, rfl⟩

/-- `f` neither reads nor writes CORE's state. -/
def LeavesCore (f : State → State) : Prop := ∀ s d, f { s with core := d } = { f s with core := d }

theorem Agree.of_leavesCore {s t : State} {f : State → State} (h : Agree s t) (hf : LeavesCore f) :
    Agree (f s) (f t) := by
  obtain ⟨d, hd, rfl⟩ := h.eq_withCore
  have hcore : (f s).core = s.core := (congrArg State.core (hf s s.core) :)
  rw [hf s d]
  exact ⟨hcore ▸ hd, rfl, rfl, rfl⟩

theorem leavesCore_takeTurn : LeavesCore takeTurn := fun _ _ => rfl

theorem leavesCore_hostGoto (n : Nat) : LeavesCore (hostGoto n) := fun _ _ => rfl

theorem leavesCore_hostAdvance : LeavesCore hostAdvance := fun _ _ => rfl

theorem leavesCore_deliver (k : Fin 16) : LeavesCore (deliver k) := fun _ _ => rfl

/-- The same outcome, of states that agree. -/
inductive OutcomeAgree : Host.Outcome State Fault Refusal → Host.Outcome State Fault Refusal → Prop
  | next {s t : State} : Agree s t → OutcomeAgree (.next s) (.next t)
  | refused (r : Refusal) : OutcomeAgree (.refused r) (.refused r)

theorem OutcomeAgree.exists_next {x y : Host.Outcome State Fault Refusal} {t : State} (h : OutcomeAgree x y)
    (hx : x = .next t) : ∃ t', y = .next t' ∧ Agree t t' := by
  subst hx
  cases h with
  | next ht => exact ⟨_, rfl, ht⟩

theorem OutcomeAgree.eq_refused {x y : Host.Outcome State Fault Refusal} {r : Refusal} (h : OutcomeAgree x y)
    (hx : x = .refused r) : y = .refused r := by
  subst hx
  cases h with
  | refused => rfl

theorem OutcomeAgree.onCore {f : CoreState → CoreState} (hf : KeepsCoreAgree f) {s t : State} (h : Agree s t) :
    OutcomeAgree (onCore f s) (onCore f t) := by
  obtain ⟨d, hd, rfl⟩ := h.eq_withCore
  exact .next (agree_withCore (hf _ _ hd))

/-- R221: a read returns the same word. -/
theorem OutcomeAgree.read (reg : Fin 16) {s t : State} (h : Agree s t) :
    OutcomeAgree (returnWord (windowRead s.core reg) s) (returnWord (windowRead t.core reg) t) := by
  obtain ⟨d, hd, rfl⟩ := h.eq_withCore
  rw [hd.windowRead_eq]
  exact .next ⟨hd, rfl, rfl, rfl⟩

theorem OutcomeAgree.mapNext {f : State → State} (hf : LeavesCore f) {x y : Host.Outcome State Fault Refusal}
    (h : OutcomeAgree x y) : OutcomeAgree (mapNext f x) (mapNext f y) := by
  cases h with
  | next h => exact .next (h.of_leavesCore hf)
  | refused r => exact .refused r

theorem exec_agree (i : Instr) {s t : State} (h : Agree s t) : OutcomeAgree (exec i s) (exec i t) := by
  cases i with
  | nop | init | push1 | push2 | push3 | push4 | finish | wrCtrl => exact .onCore (keepsCoreAgree_performCommand _) h
  | wrDin x => exact .onCore (keepsCoreAgree_writeDin x) h
  | rdCtrl | rdDin | rdStatus | rdLenLo | rdLenHi | rdRsv5 | rdRsv6 | rdRsv7 | rdDigest => exact .read _ h
  | wrStatus | wrLenLo | wrLenHi | wrRsv5 | wrRsv6 | wrRsv7 | wrDigest => exact .next h

theorem performAccess_agree (a : HostAccess) {s t : State} (h : Agree s t) :
    OutcomeAgree (performAccess a s) (performAccess a t) := by
  unfold performAccess
  cases decodeAccess a with
  | ok i => exact exec_agree i (h.of_leavesCore leavesCore_hostAdvance)
  | error r => exact .refused (refusalOf r)

/-- A branch by a bit that is not CORE's. -/
theorem agree_hostBranch (taken : Bool) (label : Nat) {s t : State} (h : Agree s t) :
    Agree (hostBranch taken label s) (hostBranch taken label t) := by
  cases taken with
  | false => exact h.of_leavesCore leavesCore_hostAdvance
  | true => exact h.of_leavesCore (leavesCore_hostGoto label)

theorem hostTurn_agree {s t : State} (h : Agree s t) : OutcomeAgree (hostTurn s) (hostTurn t) := by
  have hop : currentOp t = currentOp s := h.observe_eq currentOp fun _ _ => rfl
  have hbit (k : Fin 16) (bit : Fin 32) : hostBit k bit t = hostBit k bit s :=
    h.observe_eq (hostBit k bit) fun _ _ => rfl
  unfold hostTurn
  rw [hop]
  cases currentOp s with
  | wr off bytes data => exact performAccess_agree _ h
  | rd off bytes k => exact (performAccess_agree _ h).mapNext (leavesCore_deliver k)
  | bbs k bit label =>
    refine .next ?_
    rw [hbit]
    exact agree_hostBranch _ label h
  | bbc k bit label =>
    refine .next ?_
    rw [hbit]
    exact agree_hostBranch _ label h
  | halt => exact .next h

theorem takeStep_agree (who : Turn) {s t : State} (h : Agree s t) : OutcomeAgree (takeStep who s) (takeStep who t) := by
  cases who with
  | host => exact hostTurn_agree h
  | core => exact .onCore keepsCoreAgree_sequencerStep h
  | reset => exact .onCore (f := fun _ => CoreState.reset) (fun _ _ _ => coreAgree_refl _) h

theorem step_agree {s t : State} (h : Agree s t) : OutcomeAgree (step s) (step t) := by
  have hturn : nextTurn t = nextTurn s := h.observe_eq nextTurn fun _ _ => rfl
  rw [step, step, hturn]
  exact takeStep_agree _ (h.of_leavesCore leavesCore_takeTurn)

/-! ### The obligations -/

/-- Settles O55: each of the three agents takes states that agree to the same outcome: CORE reads V and W while BUSY
only, and of BUF the bytes below BCNT and those it has just written. -/
theorem unspecifiedResetValuesAreNotObserved : Obligations.UnspecifiedResetValuesAreNotObserved := fun _ _ h =>
  ⟨fun _ => (step_agree h).exists_next, fun _ => (step_agree h).eq_refused⟩

/-- Settles O13: the values of R290; the STATUS word is that of a state INIT leaves. -/
theorem resetLeavesTheListedValues : Obligations.ResetLeavesTheListedValues :=
  ⟨rfl, rfl, rfl, rfl, rfl, rfl, rfl, rfl, rfl, rfl, rfl, rfl, statusWord_initCore CoreState.reset⟩

/-- Settles O14: the platform's turn and INIT write the same values to these items. -/
theorem resetAgreesWithInit : Obligations.ResetAgreesWithInit := fun _ u hn =>
  ⟨_, _, step_of_reset hn, exec_command (i := .init) rfl u, rfl, rfl, rfl, rfl, rfl, rfl, rfl, rfl, rfl, rfl, rfl, rfl,
    rfl, rfl, rfl⟩

end Sys2Proof.Machine
end

-- The round trip of spec/30_encoding.md sections 1 and 2: the decoder takes every instruction's encoding back to it.
section

namespace Sys2Proof.Machine

/-- R91, R95: the descriptor of a register's offset decodes to that register's row. -/
theorem decode_descriptorOf_slot (wr : Bool) (reg : BitVec 4) (v : Word) :
    decode (.bus (descriptorOf wr (4 * reg.toNat)) v) = .ok (if wr then decodeWrite reg v else decodeRead reg) := by
  rw [decode_bus_eq_ok_iff, decodeDescriptor_eq_ok_iff]
  have halign : BitVec.ofNat 2 (4 * reg.toNat) = 0 := by
    apply BitVec.eq_of_toNat_eq
    simp
  have hreg : BitVec.ofNat 4 (4 * reg.toNat / 4) = reg := by simp
  rw [descriptorOf_align, descriptorOf_write, descriptorOf_reg, hreg]
  exact ⟨halign, rfl⟩

/-- R95: slots 8 to 15 read the digest registers. -/
theorem decodeRead_digest (k : Fin 8) : decodeRead (BitVec.ofNat 4 (8 + k.val)) = .rdDigest k := by
  revert k
  decide

/-- R95: slots 8 to 15 write the digest registers. -/
theorem decodeWrite_digest (k : Fin 8) (v : Word) : decodeWrite (BitVec.ofNat 4 (8 + k.val)) v = .wrDigest k v := by
  fin_cases k <;> rfl

/-- R90, R94, R95: every instruction is the row of a command word, or the read or the write of a register slot. -/
theorem instr_row_cases (i : Instr) :
    (∃ v, (decodeCommand v).toInstr = some i) ∨ (∃ reg, decodeRead reg = i) ∨ ∃ reg v, decodeWrite reg v = i := by
  cases i with
  | nop => exact .inl ⟨0x00000000, rfl⟩
  | init => exact .inl ⟨0x00000001, rfl⟩
  | push1 => exact .inl ⟨0x00000102, rfl⟩
  | push2 => exact .inl ⟨0x00000202, rfl⟩
  | push3 => exact .inl ⟨0x00000302, rfl⟩
  | push4 => exact .inl ⟨0x00000402, rfl⟩
  | finish => exact .inl ⟨0x00000003, rfl⟩
  | rdCtrl => exact .inr (.inl ⟨0, rfl⟩)
  | rdDin => exact .inr (.inl ⟨1, rfl⟩)
  | rdStatus => exact .inr (.inl ⟨2, rfl⟩)
  | rdLenLo => exact .inr (.inl ⟨3, rfl⟩)
  | rdLenHi => exact .inr (.inl ⟨4, rfl⟩)
  | rdRsv5 => exact .inr (.inl ⟨5, rfl⟩)
  | rdRsv6 => exact .inr (.inl ⟨6, rfl⟩)
  | rdRsv7 => exact .inr (.inl ⟨7, rfl⟩)
  | rdDigest k => exact .inr (.inl ⟨_, decodeRead_digest k⟩)
  | wrCtrl v => exact .inr (.inr ⟨0, v, rfl⟩)
  | wrDin v => exact .inr (.inr ⟨1, v, rfl⟩)
  | wrStatus v => exact .inr (.inr ⟨2, v, rfl⟩)
  | wrLenLo v => exact .inr (.inr ⟨3, v, rfl⟩)
  | wrLenHi v => exact .inr (.inr ⟨4, v, rfl⟩)
  | wrRsv5 v => exact .inr (.inr ⟨5, v, rfl⟩)
  | wrRsv6 v => exact .inr (.inr ⟨6, v, rfl⟩)
  | wrRsv7 v => exact .inr (.inr ⟨7, v, rfl⟩)
  | wrDigest k v => exact .inr (.inr ⟨_, v, decodeWrite_digest k v⟩)

/-- Settles O2: a command row encodes as the word it is the row of, a read or a write row as its slot's descriptor, and
the decoder takes each of them back to the row. -/
theorem decodeOfEncodeIsTheInstruction : Obligations.DecodeOfEncodeIsTheInstruction := fun i => by
  obtain ⟨v, h⟩ | ⟨reg, rfl⟩ | ⟨reg, v, rfl⟩ := instr_row_cases i
  · rw [encode_toInstr h]
    exact decode_command_eq_ok_iff.mpr h
  · rw [encode_decodeRead]
    exact decode_descriptorOf_slot false reg 0
  · rw [encode_decodeWrite]
    exact decode_descriptorOf_slot true reg v

end Sys2Proof.Machine
end
